-- ==== Sys2Proof/Word.lean ====
section
/-! DEFINITION. The two widths of the codec core: the byte and the 16-bit checksum (spec/00_scope.md R11). -/

namespace Sys2Proof

/-- A byte: "A byte is 8 bits" (R11). -/
abbrev Byte := BitVec 8

/-- A checksum value: "The checksum is 16 bits" (R11). -/
abbrev Sum16 := BitVec 16

/-- A checksum function: total, from a finite byte sequence (length 0 allowed) to 16 bits (R10). -/
abbrev Checksum := List Byte → Sum16

end Sys2Proof
end

