-- ==== Sys2Proof/Config.lean ====
section
/-! DEFINITION. What is fixed for a built codec core: the protocol constants (spec/00_scope.md R9), and the
open parameters of R8 and R10 as constants without a body, so that no proof can see a value of them. -/

namespace Sys2Proof.Config

/-- START_BYTE and END_BYTE, one value (R9). -/
def flag : Byte := 0x7E

/-- ESC_BYTE (R9). -/
def esc : Byte := 0x7D

/-- The mask of the escaped form (R9). -/
def xmask : Byte := 0x20

/-- The header is the opening FLAG (R9). -/
def headerLen : Nat := 1

/-- The footer is checksum low, checksum high and the closing FLAG (R9). -/
def footerLen : Nat := 3

/-- `CK`, the collaborator's checksum function (R10): a parameter; nothing but its type is known of it
(R115; log 5). -/
opaque ck : Checksum

/-- `ENC_P`, the payload capacity the reset core's encoder was built with (R8; log 3). -/
opaque encP : Nat

/-- `DEC_P`, the maximum expected payload size the reset core's decoder was built with (R8; log 3). -/
opaque decP : Nat

end Sys2Proof.Config
end

