-- ==== Sys2Proof/Machine/Detector.lean ====
section
/-! DEFINITION. DET, the frame delimiter detector: four pure functions of one byte (spec/40_detector.md). -/

namespace Sys2Proof.Machine

/-- `DET_FLAG(b) = (b == 0x7E)` (R100). -/
def detFlag (b : Byte) : Bool := b == Config.flag

/-- `DET_ESC(b) = (b == 0x7D)` (R101). -/
def detEsc (b : Byte) : Bool := b == Config.esc

/-- `DET_RSVD(b) = DET_FLAG(b) or DET_ESC(b)` (R102). -/
def detRsvd (b : Byte) : Bool := detFlag b || detEsc b

/-- `XFORM(b) = b xor 0x20` (R103). -/
def xform (b : Byte) : Byte := b ^^^ Config.xmask

/-- The class of a byte (R102). -/
inductive ByteClass where
  /-- the delimiter -/
  | flag
  /-- the escape prefix -/
  | esc
  /-- everything else -/
  | data
  deriving DecidableEq, Repr

/-- "the class of a byte ... is `FLAG` if `DET_FLAG(b)`, else `ESC` if `DET_ESC(b)`, else `DATA`" (R102). -/
def classify (b : Byte) : ByteClass :=
  if detFlag b then .flag else if detEsc b then .esc else .data

end Sys2Proof.Machine
end

