-- ==== Sys2Proof/Syntax.lean ====
section
/-! DEFINITION. The operations of the codec core, one constructor per row of spec/opcode_table.json
(spec/30_encoding.md R84 for the host operations, R73 for the wire symbols, R89 for the checksum port). -/

namespace Sys2Proof

/-- One operation with its operands, in the order of R84 and with the forms of R85. -/
inductive Instr where
  /-- `ENC_RESET` (R120). -/
  | encReset
  /-- `ENC_WRITE src_ok, length, pl` (R122). -/
  | encWrite (srcOk : Bool) (length : Nat) (pl : List Byte)
  /-- `ENC_SIZE` (R130). -/
  | encSize
  /-- `ENC_DATA i` (R131). -/
  | encData (i : Nat)
  /-- `DEC_RESET` (R140). -/
  | decReset
  /-- `DEC_FEED byte` (R142). -/
  | decFeed (byte : Byte)
  /-- `DEC_AVAIL` (R170). -/
  | decAvail
  /-- `DEC_SIZE` (R171). -/
  | decSize
  /-- `DEC_READ1` (R172). -/
  | decRead1
  /-- `DEC_READN dst_ok, max_len` (R175). -/
  | decReadn (dstOk : Bool) (maxLen : Nat)
  /-- `DEC_DATA k` (R177). -/
  | decData (k : Nat)
  /-- The wire symbol `FLAG` arriving at the decoder (R73, R100). -/
  | flag
  /-- The wire symbol `ESC` arriving at the decoder (R73, R101). -/
  | esc
  /-- The wire symbol `DATA d` arriving at the decoder (R73, R102). -/
  | data (d : Byte)
  /-- The two-byte wire symbol `ESCPAIR d` arriving at the decoder (R73, R103). -/
  | escpair (d : Byte)
  /-- `CK_RESET` at the checksum port (R111). -/
  | ckReset
  /-- `CK_UPDATE b` at the checksum port (R112). -/
  | ckUpdate (b : Byte)
  /-- `CK_COMPUTE s` at the checksum port (R113). -/
  | ckCompute (s : List Byte)
  deriving DecidableEq, Repr

end Sys2Proof
end

