-- ==== Sys2Proof/WellFormed.lean ====
section
/-! DEFINITION. Which operations are well formed: the operand forms of spec/30_encoding.md R85 and the
symbol classes of R73 that the constructors' types do not already say. -/

namespace Sys2Proof

/-- R85: `pl` is "a sequence of exactly `length` bytes, meaningful only when `src_ok` is true and `length > 0`":
where it is not meaningful, any sequence will do (log 9). -/
def payloadWf (srcOk : Bool) (length : Nat) (pl : List Byte) : Bool :=
  !srcOk || length == 0 || pl.length == length

/-- R73: `DATA` is "any single byte other than 0x7E and 0x7D". -/
def dataWf (d : Byte) : Bool :=
  d != Config.flag && d != Config.esc

/-- The operand checks of one operation. -/
def Instr.wellFormed : Instr → Bool
  | .encReset => true
  | .encWrite srcOk length pl => payloadWf srcOk length pl
  | .encSize => true
  | .encData _ => true
  | .decReset => true
  | .decFeed _ => true
  | .decAvail => true
  | .decSize => true
  | .decRead1 => true
  | .decReadn _ _ => true
  | .decData _ => true
  | .flag => true
  | .esc => true
  | .data d => dataWf d
  | .escpair _ => true
  | .ckReset => true
  | .ckUpdate _ => true
  | .ckCompute _ => true

end Sys2Proof
end

