-- ==== Sys2Proof/Decode.lean ====
section
/-! DEFINITION. The request a step is given, its decoder, and the encoder beside it: the formats HOST_OP
(spec/30_encoding.md R82, R84), CK_PORT (R89) and the wire symbols (R73). The spec gives the codes and the
operand forms and no bit layout for operands, so a request carries typed operands (log 14). -/

namespace Sys2Proof

/-- One operand of a request: the four forms of R85. -/
inductive Arg where
  /-- a 1-bit operand: `src_ok`, `dst_ok` -/
  | bit (b : Bool)
  /-- a natural number: `length`, `max_len`, `i`, `k` -/
  | nat (n : Nat)
  /-- an 8-bit operand: `byte`, `b` -/
  | byte (b : Byte)
  /-- a byte sequence: `pl`, `s` -/
  | bytes (bs : List Byte)
  deriving DecidableEq, Repr

/-- A request as it stands at one of the core's three interfaces. -/
inductive Request where
  /-- format HOST_OP: a 4-bit select code and the operands in the order of R84 -/
  | hostOp (op : BitVec 4) (args : List Arg)
  /-- format CK_PORT: a 2-bit select code and its operand (R89) -/
  | ckPort (sel : BitVec 2) (args : List Arg)
  /-- formats WIRE_BYTE and WIRE_PAIR: one or more bytes arriving on the wire, the first byte first (R73, R78) -/
  | wire (first : Byte) (more : List Byte)
  deriving DecidableEq, Repr

/-- Why a request selects no operation. -/
inductive DecodeError where
  /-- HOST_OP codes 0100 to 0111 and 1111 (R86) -/
  | unassignedHostOp
  /-- CK_PORT code 11 (R89) -/
  | unassignedCkPort
  /-- the operands are not those R84 (or R89) gives the code (log 14) -/
  | operandForm
  deriving DecidableEq, Repr

/-! ## The decoder -/

/-- An operation without operands. -/
def noArgs (i : Instr) : List Arg → Except DecodeError Instr
  | [] => .ok i
  | _ :: _ => .error .operandForm

/-- An operation with one natural-number operand. -/
def natArg (f : Nat → Instr) : List Arg → Except DecodeError Instr
  | [.nat n] => .ok (f n)
  | _ => .error .operandForm

/-- An operation with one 8-bit operand. -/
def byteArg (f : Byte → Instr) : List Arg → Except DecodeError Instr
  | [.byte b] => .ok (f b)
  | _ => .error .operandForm

/-- An operation with one byte-sequence operand. -/
def bytesArg (f : List Byte → Instr) : List Arg → Except DecodeError Instr
  | [.bytes bs] => .ok (f bs)
  | _ => .error .operandForm

/-- The operands of `DEC_READN`: `dst_ok`, `max_len`. -/
def readnArgs : List Arg → Except DecodeError Instr
  | [.bit ok, .nat n] => .ok (.decReadn ok n)
  | _ => .error .operandForm

/-- The operands of `ENC_WRITE`: `src_ok`, `length`, `pl`. How many bytes `pl` has is not looked at here: a rejected
write does not read it (R123), an accepted one is refused by its meaning (U5; log 9). DESIGN CHOICE (log 9): the `pl`
that is absent with `src_ok` false still takes its place in the list, as any byte sequence, the empty one by custom; a
list that leaves the place out has not the form of the operation. -/
def writeArgs : List Arg → Except DecodeError Instr
  | [.bit ok, .nat n, .bytes pl] => .ok (.encWrite ok n pl)
  | _ => .error .operandForm

/-- The HOST_OP select codes of R84; the unassigned ones are refused (R86). -/
def decodeHostOp (op : BitVec 4) (args : List Arg) : Except DecodeError Instr :=
  match op with
  | 0b0000#4 => noArgs .encReset args
  | 0b0001#4 => writeArgs args
  | 0b0010#4 => noArgs .encSize args
  | 0b0011#4 => natArg .encData args
  | 0b1000#4 => noArgs .decReset args
  | 0b1001#4 => byteArg .decFeed args
  | 0b1010#4 => noArgs .decAvail args
  | 0b1011#4 => noArgs .decSize args
  | 0b1100#4 => noArgs .decRead1 args
  | 0b1101#4 => readnArgs args
  | 0b1110#4 => natArg .decData args
  | _ => .error .unassignedHostOp

/-- The CK_PORT select codes of R89; code 11 is unassigned. -/
def decodeCkPort (sel : BitVec 2) (args : List Arg) : Except DecodeError Instr :=
  match sel with
  | 0b00#2 => noArgs .ckReset args
  | 0b01#2 => byteArg .ckUpdate args
  | 0b10#2 => bytesArg .ckCompute args
  | _ => .error .unassignedCkPort

/-- The one-byte wire symbols of R73, "testing FLAG first, then ESC, then taking everything else as DATA". -/
def wireSymbol (b : Byte) : Instr :=
  if b = Config.flag then .flag else if b = Config.esc then .esc else .data b

/-- What is still to arrive of a stretch of wire bytes. -/
def stillToArrive : List Byte → List Request
  | [] => []
  | b :: bs => [.wire b bs]

/-- The first wire symbol of a stretch of bytes, and what is still to arrive after it: an ESC with a byte after it is
the two-byte symbol. No bytes are refused: every byte sequence has "a defined behaviour" (R78). -/
def decodeWire (first : Byte) : List Byte → Instr × List Request
  | [] => (wireSymbol first, [])
  | d :: rest =>
    if first = Config.esc then (.escpair d, stillToArrive rest) else (wireSymbol first, [.wire d rest])

/-- The operation a request selects and what is left of the request, or the reason it selects none. Only a stretch
of wire bytes longer than one symbol leaves anything. -/
def decode : Request → Except DecodeError (Instr × List Request)
  | .hostOp op args => (decodeHostOp op args).map (·, [])
  | .ckPort sel args => (decodeCkPort sel args).map (·, [])
  | .wire first more => .ok (decodeWire first more)

/-! ## The encoder -/

/-- The request that selects an operation, from the same tables (R84, R89, R73). -/
def encode : Instr → Request
  | .encReset => .hostOp 0b0000#4 []
  | .encWrite srcOk length pl => .hostOp 0b0001#4 [.bit srcOk, .nat length, .bytes pl]
  | .encSize => .hostOp 0b0010#4 []
  | .encData i => .hostOp 0b0011#4 [.nat i]
  | .decReset => .hostOp 0b1000#4 []
  | .decFeed b => .hostOp 0b1001#4 [.byte b]
  | .decAvail => .hostOp 0b1010#4 []
  | .decSize => .hostOp 0b1011#4 []
  | .decRead1 => .hostOp 0b1100#4 []
  | .decReadn dstOk maxLen => .hostOp 0b1101#4 [.bit dstOk, .nat maxLen]
  | .decData k => .hostOp 0b1110#4 [.nat k]
  | .flag => .wire 0x7E []
  | .esc => .wire 0x7D []
  | .data d => .wire d []
  | .escpair d => .wire 0x7D [d]
  | .ckReset => .ckPort 0b00#2 []
  | .ckUpdate b => .ckPort 0b01#2 [.byte b]
  | .ckCompute s => .ckPort 0b10#2 [.bytes s]

/-! ## The words of the opcode table -/

/-- The operands of a HOST_OP code with every bit zero, for a table word, which carries the code alone. -/
def zeroHostArgs (op : BitVec 4) : List Arg :=
  match op with
  | 0b0001#4 => [.bit false, .nat 0, .bytes []]
  | 0b0011#4 => [.nat 0]
  | 0b1001#4 => [.byte 0]
  | 0b1101#4 => [.bit false, .nat 0]
  | 0b1110#4 => [.nat 0]
  | _ => []

/-- The operand of a CK_PORT code with every bit zero. -/
def zeroCkArgs (sel : BitVec 2) : List Arg :=
  match sel with
  | 0b01#2 => [.byte 0]
  | 0b10#2 => [.bytes []]
  | _ => []

/-- The request a table word of exactly `nbits` bits stands for, by the formats of R90: 2 bits are CK_PORT, 4 bits
HOST_OP, 8 bits WIRE_BYTE, where every word but 0x7E and 0x7D is the DATA row, and 16 bits WIRE_PAIR with the first wire
byte in bits 15..8 (the pattern 01111101dddddddd). DESIGN CHOICE (log 15): 16 bits whose upper byte is not 0x7D match no
row and are two wire bytes arriving one after the other; a width that no row has is an unassigned code. -/
def tableRequest (nbits w : Nat) : Request :=
  match nbits with
  | 2 => .ckPort (BitVec.ofNat 2 w) (zeroCkArgs (BitVec.ofNat 2 w))
  | 4 => .hostOp (BitVec.ofNat 4 w) (zeroHostArgs (BitVec.ofNat 4 w))
  | 8 => .wire (BitVec.ofNat 8 w) []
  | 16 => .wire (BitVec.ofNat 8 (w / 256)) [BitVec.ofNat 8 w]
  | _ => .hostOp 0b1111#4 []

/-- The instruction the decoder reads from a table word of `nbits` bits, if the word is one whole instruction. -/
def decodeTableWord (nbits w : Nat) : Option Instr :=
  match decode (tableRequest nbits w) with
  | .ok (i, []) => some i
  | .ok (_, _ :: _) => none
  | .error _ => none

end Sys2Proof
end

