-- ==== Sys2Proof/Machine/State.lean ====
section
/-! DEFINITION. The state of one codec core (one ENC, one DEC), as plain data: every register, flag, counter
and buffer of spec/10_state.md, the parameters the instances were built with (spec/00_scope.md R8), and the
model's own two fields, the report of the last operation and the requests still to be invoked. -/

namespace Sys2Proof.Machine

/-- A byte buffer: (cell index, byte) pairs, indices strictly rising. A cell that is not listed has not been
written since reset and has no value (R35; log 6). -/
abbrev Memory := List Host.Cell

/-- The three internal buffers (R50). -/
inductive Buffer where
  /-- the encoder output buffer (R25) -/
  | ebuf
  /-- the decoder accumulation buffer (R30) -/
  | abuf
  /-- the decoder ready buffer (R31) -/
  | rbuf
  deriving DecidableEq, Repr

/-- Why the machine stops. The spec gives the hardware no fault (R210); these two name accesses to cells that
have no value or do not exist, and no run from reset meets them (R204, R56). -/
inductive Fault where
  /-- Raised by every read of a buffer cell (`loadCell`) when the cell has not been written since reset (R35).
  Safe: the hardware would go on with an unspecified byte. Log 6. -/
  | unwrittenCell (buf : Buffer) (i : Nat)
  /-- Raised by every read or store of a buffer cell (`loadCell`, `storeCell`) when the index is not below the
  buffer's size (R25, R30, R31). Safe: there is no such cell. Log 7. -/
  | cellOutOfRange (buf : Buffer) (i : Nat)
  deriving DecidableEq, Repr

/-- Why a step gives no meaning. -/
inductive Refusal where
  /-- Raised by `exec` for an operation without a meaning in this model; no arm does so. Safe. -/
  | notModelled (mnemonic : String)
  /-- Raised by `step` when the oldest request selects no operation: an unassigned code, "a model that keeps the
  numeric codes refuses an unassigned one" (R86, R89), or operands that R84 does not give the code. Safe. Log 14. -/
  | badRequest (e : DecodeError)
  /-- Raised by `ENC_DATA i` with `i >= enc.frame_pos`: "refused" (R131, U4). Safe. Log 8. -/
  | outsideEncoderView
  /-- Raised by `DEC_DATA k` with `k >= dec.available_len`: "refused" (R177, U4). Safe. Log 8. -/
  | outsideDecoderView
  /-- Raised by an accepted `ENC_WRITE` whose `pl` is not a sequence of exactly `length` bytes: "refused"
  (R52, U5). Safe. Log 9. -/
  | hostSequenceLength
  deriving DecidableEq, Repr

/-- The parameters the two instances were built with; no operation changes them (R8, R34; log 3). -/
structure Params where
  /-- `ENC_P` (R8) -/
  encP : Nat
  /-- `DEC_P` (R8) -/
  decP : Nat
  /-- `SHARED_RBUF`, the single-buffer reading of the decoder; the spec's default is false (R31, D6; log 4) -/
  sharedRbuf : Bool
  deriving DecidableEq, Repr

/-- The encoder instance (R20). -/
structure Enc where
  /-- `enc.frame_pos` (R23) -/
  framePos : Nat
  /-- `enc.ck_acc`, the bytes folded since the last `ck_reset()` (R24) -/
  ckAcc : List Byte
  /-- `ebuf` (R25) -/
  ebuf : Memory
  deriving DecidableEq, Repr

/-- The decoder instance (R20). -/
structure Dec where
  /-- `dec.frame_pos` (R26) -/
  framePos : Nat
  /-- `dec.in_escape` (R27) -/
  inEscape : Bool
  /-- `dec.read_pos` (R28) -/
  readPos : Nat
  /-- `dec.available_len` (R29) -/
  availableLen : Nat
  /-- `abuf` (R30) -/
  abuf : Memory
  /-- `rbuf` (R31) -/
  rbuf : Memory
  deriving DecidableEq, Repr

/-- The labels of the failure conditions (R211 to R216), ghost information beside the result (R218; log 17). -/
inductive Condition where
  /-- encoder precondition failure (R211) -/
  | encReject
  /-- premature delimiter (R212) -/
  | decShort
  /-- oversized frame (R213) -/
  | decOverflow
  /-- checksum mismatch (R214) -/
  | decBadsum
  /-- drain past available data (R215) -/
  | drainEmpty
  /-- drain with no destination or no room (R216) -/
  | drainNoarg
  deriving DecidableEq, Repr

/-- One outward access of an operation: to host memory, one byte wide (R13, R52, R56), or to the checksum
port (R15, R89). Host addresses are offsets from `src` or `dst`. -/
inductive Access where
  /-- `MemRead(src + off, 1)` gave `v` -/
  | memRead (off : Nat) (v : Byte)
  /-- `MemWrite(dst + off, 1, v)` -/
  | memWrite (off : Nat) (v : Byte)
  /-- `ck_reset()` (R111) -/
  | ckReset
  /-- `ck_update(b)` returned `v` (R112) -/
  | ckUpdate (b : Byte) (v : Sum16)
  /-- `ck_compute(s)` returned `v` (R113) -/
  | ckCompute (s : List Byte) (v : Sum16)
  deriving DecidableEq, Repr

/-- The result of an operation (the column "results" of R84, and R89). -/
inductive Result where
  /-- no result -/
  | unit
  /-- `bytes_written`, `size`, `count` -/
  | count (n : Nat)
  /-- `byte` -/
  | byte (b : Byte)
  /-- `frame_complete` -/
  | frameComplete (b : Bool)
  /-- the two `frame_complete` results of a two-byte symbol, in order -/
  | framesComplete (b₀ b₁ : Bool)
  /-- `bytes_copied` and `out` -/
  | copied (n : Nat) (out : List Byte)
  /-- `running_value`, `value` -/
  | sum (v : Sum16)
  deriving DecidableEq, Repr

/-- What the last operation presented to the outside (the model's own field; log 2). -/
structure Report where
  /-- the result -/
  result : Result
  /-- the conditions it met, in order (R218) -/
  conds : List Condition
  /-- its outward accesses, in order -/
  bus : List Access
  deriving DecidableEq, Repr

/-- The state of one codec core. -/
structure State where
  /-- the built instances' parameters (R8, R34; log 3) -/
  params : Params
  /-- the encoder (R20) -/
  enc : Enc
  /-- the decoder (R20) -/
  dec : Dec
  /-- the model's own: what the last operation presented (log 2) -/
  report : Report
  /-- the model's own: the operation requests the host will invoke, oldest first (R21, R58; log 1) -/
  pending : List Request
  deriving DecidableEq, Repr

/-- The core right after reset (R35, R240): cursors, counters and the flag as R35 gives them, every buffer cell
unspecified, `ENC_P` and `DEC_P` whatever the core was built with, nothing pending. -/
def State.reset : State where
  params := { encP := Config.encP, decP := Config.decP, sharedRbuf := false }
  enc := { framePos := 0, ckAcc := [], ebuf := [] }
  dec := { framePos := 0, inEscape := false, readPos := 0, availableLen := 0, abuf := [], rbuf := [] }
  report := { result := .unit, conds := [], bus := [] }
  pending := []

end Sys2Proof.Machine
end

