-- ==== Sys2Proof/Machine/Ops.lean ====
section
/-! DEFINITION. The named operations over buffers, registers and the report, and the decoder's failure entry
(spec/60_exceptions.md R222), which every failing operation of DEC shares. -/

namespace Sys2Proof.Machine

/-! ## Sequencing -/

/-- Go on with the value of an outcome; a fault or a refusal stops. -/
def andThen {α β : Type} (o : Host.Outcome α Fault Refusal) (k : α → Host.Outcome β Fault Refusal) :
    Host.Outcome β Fault Refusal :=
  match o with
  | .next a => k a
  | .fault f => .fault f
  | .refused r => .refused r

/-! ## Buffers -/

/-- What a cell that is not listed reads as: no value, "every cell unspecified" (R35; log 6). -/
def Memory.unlisted : Option Byte := none

/-- The byte in a cell, if it has one. -/
def Memory.read : Memory → Nat → Option Byte
  | [], _ => Memory.unlisted
  | (a, v) :: m, i => if i = a then some v else Memory.read m i

/-- Write one cell, keeping the indices strictly rising. -/
def Memory.write : Memory → Nat → Byte → Memory
  | [], i, v => [(i, v)]
  | (a, w) :: m, i, v =>
    if i < a then (i, v) :: (a, w) :: m
    else if i = a then (i, v) :: m
    else (a, w) :: Memory.write m i v

/-- Every index of the list is at least `lo`, and they rise strictly. -/
def Memory.risingFrom : Nat → Memory → Bool
  | _, [] => true
  | lo, (a, _) :: m => decide (lo ≤ a) && Memory.risingFrom (a + 1) m

/-- The canonical form: indices strictly rising, no entry equal to what an unlisted cell reads as. -/
def Memory.wf (m : Memory) : Bool :=
  Memory.risingFrom 0 m && m.all (fun c => some c.2 != Memory.unlisted)

/-- `ECAP = 2*ENC_P + 6` (R8). -/
def State.ecap (s : State) : Nat := 2 * s.params.encP + 6

/-- `DCAP = 2*DEC_P + 6` (R8). -/
def State.dcap (s : State) : Nat := 2 * s.params.decP + 6

/-- Read cell `i` of a buffer of `cap` cells (R13, R56). -/
def loadCell (buf : Buffer) (cap : Nat) (m : Memory) (i : Nat) : Host.Outcome Byte Fault Refusal :=
  if i < cap then
    match m.read i with
    | some v => .next v
    | none => .fault (.unwrittenCell buf i)
  else .fault (.cellOutOfRange buf i)

/-- Write cell `i` of a buffer of `cap` cells (R13, R56). -/
def storeCell (buf : Buffer) (cap : Nat) (m : Memory) (i : Nat) (v : Byte) :
    Host.Outcome Memory Fault Refusal :=
  if i < cap then .next (m.write i v) else .fault (.cellOutOfRange buf i)

/-- Read `n` cells from cell `i` on, in increasing index. -/
def loadRange (buf : Buffer) (cap : Nat) (m : Memory) : Nat → Nat → Host.Outcome (List Byte) Fault Refusal
  | _, 0 => .next []
  | i, n + 1 =>
    andThen (loadCell buf cap m i) fun v =>
    andThen (loadRange buf cap m (i + 1) n) fun vs => .next (v :: vs)

/-- `for i = 0 .. n-1: rbuf[i] <- abuf[i]` (R142, R156): the ready buffer after the copy of `n` cells. -/
def copyCells (cap : Nat) (src : Memory) : Nat → Memory → Host.Outcome Memory Fault Refusal
  | 0, dst => .next dst
  | n + 1, dst =>
    andThen (copyCells cap src n dst) fun dst' =>
    andThen (loadCell .abuf cap src n) fun v => storeCell .rbuf cap dst' n v

/-- The buffer the drains read: `rbuf` (R31), or with `SHARED_RBUF` the accumulation buffer, since then
"`rbuf` and `abuf` are the same array" (92_eei_decisions.md D6; log 4). -/
def State.ready (s : State) : Memory := if s.params.sharedRbuf then s.dec.abuf else s.dec.rbuf

/-- The name of the buffer the drains read. -/
def State.readyBuffer (s : State) : Buffer := if s.params.sharedRbuf then .abuf else .rbuf

/-! ## The report -/

/-- The report an operation starts from: nothing presented yet. -/
def State.fresh (s : State) : State :=
  { s with report := { result := .unit, conds := [], bus := [] } }

/-- Present a result. -/
def State.answer (s : State) (r : Result) : State :=
  { s with report := { s.report with result := r } }

/-- Label a condition the operation met (R218). -/
def State.note (s : State) (c : Condition) : State :=
  { s with report := { s.report with conds := s.report.conds ++ [c] } }

/-- Make an outward access. -/
def State.access (s : State) (a : Access) : State :=
  { s with report := { s.report with bus := s.report.bus ++ [a] } }

/-! ## The decoder's frame state -/

/-- The reset of the frame state: "`dec.frame_pos <- 0` and `dec.in_escape <- false`, nothing else" (R18). -/
def State.resetFrame (s : State) : State :=
  { s with dec := { s.dec with framePos := 0, inEscape := false } }

/-- What a decoder failure does, in full (R222): the reset of the frame state and nothing else; the label is
ghost information (R218). Nothing is saved and control goes nowhere, so there is no return beside it (R223). -/
def decFail (c : Condition) (s : State) : State := s.resetFrame.note c

end Sys2Proof.Machine
end

