-- ==== Sys2Proof/Machine/Operands.lean ====
section
/-! DEFINITION. Operand forms: how the checksum is split and assembled (spec/30_encoding.md R76), the index
forms of spec/20_memory.md R61, and the host-side sequences of R52. -/

namespace Sys2Proof.Machine

/-! ## The checksum's two bytes -/

/-- `c[7:0]` (R12, R203 l). -/
def loByte (c : Sum16) : Byte := c.extractLsb' 0 8

/-- `c[15:8]` (R12, R203 l). -/
def hiByte (c : Sum16) : Byte := c.extractLsb' 8 8

/-- `(h << 8) | l` (R12, R76 b). -/
def assemble (h l : Byte) : Sum16 := (h.zeroExtend 16 <<< 8) ||| l.zeroExtend 16

/-! ## Index form (a): store at cursor with post-increment -/

/-- `EMIT(w)` (R126): `ebuf[enc.frame_pos] <- w; enc.frame_pos <- enc.frame_pos + 1`. -/
def emit (w : Byte) (s : State) : Host.Outcome State Fault Refusal :=
  andThen (storeCell .ebuf s.ecap s.enc.ebuf s.enc.framePos w) fun m =>
    .next { s with enc := { s.enc with ebuf := m, framePos := s.enc.framePos + 1 } }

/-- `abuf[dec.frame_pos] <- v; dec.frame_pos <- dec.frame_pos + 1` (R61 a; rows T1, T7, T9). -/
def accumulate (v : Byte) (s : State) : Host.Outcome State Fault Refusal :=
  andThen (storeCell .abuf s.dcap s.dec.abuf s.dec.framePos v) fun m =>
    .next { s with dec := { s.dec with abuf := m, framePos := s.dec.framePos + 1 } }

/-! ## Index forms (b) and (d): reads of the ready buffer -/

/-- `rbuf[dec.read_pos + k]` (R61 b, d). -/
def readyCell (s : State) (k : Nat) : Host.Outcome Byte Fault Refusal :=
  loadCell s.readyBuffer s.dcap s.ready (s.dec.readPos + k)

/-- `rbuf[dec.read_pos .. dec.read_pos + n)`. -/
def readyCells (s : State) (n : Nat) : Host.Outcome (List Byte) Fault Refusal :=
  loadRange s.readyBuffer s.dcap s.ready s.dec.readPos n

/-- `dec.read_pos <- dec.read_pos + n; dec.available_len <- dec.available_len - n` (R173, R175). -/
def State.consume (s : State) (n : Nat) : State :=
  { s with dec := { s.dec with readPos := s.dec.readPos + n, availableLen := s.dec.availableLen - n } }

/-! ## Index form (c): the offsets of a closing frame -/

/-- The validation threshold `HEADER_LEN + FOOTER_LEN - 1 = 3` (R77, R149). -/
def minFramePos : Nat := Config.headerLen + Config.footerLen - 1

/-- `available_len = frame_pos - header_len - footer_len + 1`, evaluated so that nothing goes below zero
(R156, R203 c). -/
def payloadLen (f : Nat) : Nat := f + 1 - (Config.headerLen + Config.footerLen)

/-! ## Host-side sequences (R52) -/

/-- `MemWrite(dst + k, 1, out[k])` for the bytes of `out` in increasing `k`, from offset `k` on (R175). -/
def memWrites : Nat → List Byte → State → State
  | _, [], s => s
  | k, v :: vs, s => memWrites (k + 1) vs (s.access (.memWrite k v))

end Sys2Proof.Machine
end

