-- ==== Sys2Proof/Machine/Flags.lean ====
section
/-! DEFINITION. The conditions the operations test (spec/10_state.md R32): none is stored but `dec.in_escape`. -/

namespace Sys2Proof.Machine

/-- When `ENC_WRITE` is rejected (R123): "`src_ok` is false (null payload), `length = 0`, `length > ENC_P`". -/
def writeRejected (srcOk : Bool) (length : Nat) (s : State) : Bool :=
  !srcOk || length == 0 || decide (s.params.encP < length)

/-- `dec.available_len > 0` (R32 c). -/
def State.hasData (s : State) : Bool := decide (0 < s.dec.availableLen)

/-- `(max_len == 0) or (not dst_ok)` (R175). -/
def drainRefusesArg (dstOk : Bool) (maxLen : Nat) : Bool := maxLen == 0 || !dstOk

/-- `dec.frame_pos >= DCAP`: the accumulation buffer has no free cell (R152). -/
def State.bufferFull (s : State) : Bool := decide (s.dcap ≤ s.dec.framePos)

/-- Set the one stored flag (R27). -/
def State.setEscape (s : State) (b : Bool) : State :=
  { s with dec := { s.dec with inEscape := b } }

end Sys2Proof.Machine
end

