-- ==== Sys2Proof/Machine/DecoderDrain.lean ====
section
/-! DEFINITION. DEC, the payload side: `DEC_AVAIL`, `DEC_SIZE`, `DEC_READ1`, `DEC_READN`, `DEC_DATA`
(spec/44_decoder_drain.md). -/

namespace Sys2Proof.Machine

/-- `return dec.available_len` (R170, R171). -/
def answerAvailable (s : State) : Host.Outcome State Fault Refusal :=
  .next (s.fresh.answer (.count s.dec.availableLen))

/-- `DEC_AVAIL` (R170). -/
def execDecAvail (s : State) : Host.Outcome State Fault Refusal := answerAvailable s

/-- `DEC_SIZE` (R171): "identical to `DEC_AVAIL`". -/
def execDecSize (s : State) : Host.Outcome State Fault Refusal := answerAvailable s

/-- `DEC_READ1` (R172 to R174). -/
def execDecRead1 (s : State) : Host.Outcome State Fault Refusal :=
  if s.hasData then
    andThen (readyCell s 0) fun v => .next ((s.fresh.consume 1).answer (.byte v))
  else .next ((s.fresh.note .drainEmpty).answer (.byte 0x00))

/-- The copying part of `DEC_READN` (R175): `n` bytes to the host, the cursor on by `n`, the count down by `n`. -/
def drain (n : Nat) (s : State) : Host.Outcome State Fault Refusal :=
  andThen (readyCells s n) fun out => .next (((memWrites 0 out s).consume n).answer (.copied n out))

/-- `DEC_READN dst_ok, max_len` (R175, R176). -/
def execDecReadn (dstOk : Bool) (maxLen : Nat) (s : State) : Host.Outcome State Fault Refusal :=
  if drainRefusesArg dstOk maxLen then .next ((s.fresh.note .drainNoarg).answer (.copied 0 []))
  else drain (min maxLen s.dec.availableLen) (if s.hasData then s.fresh else s.fresh.note .drainEmpty)

/-- `DEC_DATA k` (R177): `if k < dec.available_len: return rbuf[dec.read_pos + k] else: refused`. -/
def execDecData (k : Nat) (s : State) : Host.Outcome State Fault Refusal :=
  if k < s.dec.availableLen then
    andThen (readyCell s k) fun v => .next (s.fresh.answer (.byte v))
  else .refused .outsideDecoderView

end Sys2Proof.Machine
end

