-- ==== Sys2Proof/Machine/CkPort.lean ====
section
/-! DEFINITION. The outbound checksum port (spec/41_checksum_port.md): the three calls as ENC and DEC make them,
and the three rows of the opcode table that stand for them. Every function takes the collaborator's checksum
function as an argument (R10); `exec` supplies `Config.ck`. -/

namespace Sys2Proof.Machine

/-- `ck_reset(): enc.ck_acc <- []` (R111). -/
def ckResetCall (s : State) : State :=
  ({ s with enc := { s.enc with ckAcc := [] } }).access .ckReset

/-- The running value: `CK` of the bytes folded so far (R24, R112). -/
def runningSum (ck : Checksum) (s : State) : Sum16 := ck s.enc.ckAcc

/-- `ck_update(b): enc.ck_acc <- enc.ck_acc ++ [b]; return CK(enc.ck_acc)` (R112); the value returned is
`runningSum` of the new state. -/
def ckUpdateCall (ck : Checksum) (b : Byte) (s : State) : State :=
  ({ s with enc := { s.enc with ckAcc := s.enc.ckAcc ++ [b] } }).access
    (.ckUpdate b (ck (s.enc.ckAcc ++ [b])))

/-- `ck_compute(seq): return CK(seq)` (R113): no state of the hardware is read or written. -/
def ckComputeCall (ck : Checksum) (seq : List Byte) (s : State) : State :=
  s.access (.ckCompute seq (ck seq))

/-- `CK_RESET` (R111). -/
def execCkReset (s : State) : Host.Outcome State Fault Refusal :=
  .next (ckResetCall s.fresh)

/-- `CK_UPDATE b` (R112). -/
def ckUpdateWith (ck : Checksum) (b : Byte) (s : State) : Host.Outcome State Fault Refusal :=
  let t := ckUpdateCall ck b s.fresh
  .next (t.answer (.sum (runningSum ck t)))

/-- `CK_UPDATE b` (R112). -/
def execCkUpdate (b : Byte) (s : State) : Host.Outcome State Fault Refusal :=
  ckUpdateWith Config.ck b s

/-- `CK_COMPUTE seq` (R113). -/
def ckComputeWith (ck : Checksum) (seq : List Byte) (s : State) : Host.Outcome State Fault Refusal :=
  .next ((ckComputeCall ck seq s.fresh).answer (.sum (ck seq)))

/-- `CK_COMPUTE seq` (R113). -/
def execCkCompute (seq : List Byte) (s : State) : Host.Outcome State Fault Refusal :=
  ckComputeWith Config.ck seq s

end Sys2Proof.Machine
end

