-- ==== Sys2Proof/Machine/DecoderFeed.lean ====
section
/-! DEFINITION. DEC, the frame decoder: `DEC_RESET` and `DEC_FEED` (spec/43_decoder_feed.md). -/

namespace Sys2Proof.Machine

/-- `DEC_RESET` (R140). -/
def execDecReset (s : State) : Host.Outcome State Fault Refusal :=
  .next { s.fresh with dec := { s.dec with framePos := 0, inEscape := false, readPos := 0, availableLen := 0 } }

/-- The ready buffer after the success copy of `f` cells (R156, D21); with `SHARED_RBUF` "the copy is a no-op"
(D6; log 4). -/
def publishedBuffer (f : Nat) (s : State) : Host.Outcome Memory Fault Refusal :=
  if s.params.sharedRbuf then .next s.dec.rbuf else copyCells s.dcap s.dec.abuf f s.dec.rbuf

/-- Validation, match (R156): the copy, then `dec.available_len <- f - 3; dec.read_pos <- 1` and the reset of
the frame state. -/
def acceptFrame (f : Nat) (s : State) : Host.Outcome (State × Bool) Fault Refusal :=
  andThen (publishedBuffer f s) fun m =>
    .next (({ s with dec := { s.dec with
      rbuf := m, availableLen := payloadLen f, readPos := Config.headerLen } } : State).resetFrame, true)

/-- `VALIDATE(f)` (R142, R155 to R157). -/
def validate (ck : Checksum) (f : Nat) (s : State) : Host.Outcome (State × Bool) Fault Refusal :=
  andThen (loadRange .abuf s.dcap s.dec.abuf Config.headerLen (payloadLen f)) fun p =>
  andThen (loadCell .abuf s.dcap s.dec.abuf (f - 1)) fun h =>
  andThen (loadCell .abuf s.dcap s.dec.abuf (f - 2)) fun l =>
    if ck p = assemble h l then acceptFrame f (ckComputeCall ck p s)
    else .next (decFail .decBadsum (ckComputeCall ck p s), false)

/-- `DEC_FEED(byte)` (R142), the arms in its order (R143): the state after, and `frame_complete`. -/
def feed (ck : Checksum) (byte : Byte) (s : State) : Host.Outcome (State × Bool) Fault Refusal :=
  if s.dec.framePos = 0 then
    if detFlag byte then andThen (accumulate byte s) fun t => .next (t, false)           -- T1 (R146)
    else .next (s, false)                                                                -- T2 (R147)
  else if detFlag byte then
    if s.dec.framePos = 1 then .next (s, false)                                          -- T3 (R148)
    else if minFramePos ≤ s.dec.framePos then validate ck s.dec.framePos s               -- T4 (R149)
    else .next (decFail .decShort s, false)                                              -- T5 (R150)
  else if detEsc byte && !s.dec.inEscape then .next (s.setEscape true, false)            -- T6 (R151)
  else if s.bufferFull then .next (decFail .decOverflow s, false)                        -- T8 (R152)
  else if s.dec.inEscape then
    andThen (accumulate (xform byte) s) fun t => .next (t.setEscape false, false)        -- T7 (R153)
  else andThen (accumulate byte s) fun t => .next (t, false)                             -- T9 (R154)

/-- `DEC_FEED byte` as an operation of the host: its result is `frame_complete`. -/
def decFeedWith (ck : Checksum) (byte : Byte) (s : State) : Host.Outcome State Fault Refusal :=
  andThen (feed ck byte s.fresh) fun r => .next (r.1.answer (.frameComplete r.2))

/-- `DEC_FEED byte` (R142). -/
def execDecFeed (byte : Byte) (s : State) : Host.Outcome State Fault Refusal :=
  decFeedWith Config.ck byte s

end Sys2Proof.Machine
end

