-- ==== Sys2Proof/Machine/Encoder.lean ====
section
/-! DEFINITION. ENC, the byte-stuffing encoder (spec/42_encoder.md): `ENC_RESET`, `ENC_WRITE`, `ENC_SIZE`,
`ENC_DATA`, with the helper `EMIT_STUFFED` (`EMIT` is `emit` of Operands). -/

namespace Sys2Proof.Machine

/-- `EMIT_STUFFED(b)` (R127). -/
def emitStuffed (b : Byte) (s : State) : Host.Outcome State Fault Refusal :=
  if detRsvd b then andThen (emit Config.esc s) (emit (xform b)) else emit b s

/-- The payload loop of `ENC_WRITE` (R122) over the bytes of `pl` from offset `i` on: read the byte, fold the
raw byte first, then emit it, escaped if reserved. -/
def foldPayload (ck : Checksum) : Nat → List Byte → State → Host.Outcome State Fault Refusal
  | _, [], s => .next s
  | i, b :: bs, s =>
    andThen (emitStuffed b (ckUpdateCall ck b (s.access (.memRead i b)))) (foldPayload ck (i + 1) bs)

/-- An accepted `ENC_WRITE` up to the last payload byte: `enc.frame_pos <- 0`, `ck_reset()`, the opening
delimiter, the payload (R122, R124). -/
def writeBody (ck : Checksum) (pl : List Byte) (s : State) : Host.Outcome State Fault Refusal :=
  andThen (emit Config.flag (ckResetCall { s with enc := { s.enc with framePos := 0 } }))
    (foldPayload ck 0 pl)

/-- The end of an accepted `ENC_WRITE`: the checksum's low byte, its high byte, the closing delimiter (R122). -/
def writeFooter (c : Sum16) (s : State) : Host.Outcome State Fault Refusal :=
  andThen (emitStuffed (loByte c) s) fun s₁ =>
  andThen (emitStuffed (hiByte c) s₁) (emit Config.flag)

/-- `ENC_WRITE` (R122, R123, R128). The last value `ck_update` returned is the running value after the loop. DESIGN
CHOICE (log 21): the wire size is the one of R122 and R129; the `2*length + 4 + (1 or 2 per checksum byte)` that R135
prints for a payload of reserved bytes is two more, and is not followed. -/
def encWriteWith (ck : Checksum) (srcOk : Bool) (length : Nat) (pl : List Byte) (s : State) :
    Host.Outcome State Fault Refusal :=
  if writeRejected srcOk length s then .next ((s.fresh.note .encReject).answer (.count 0))
  else if pl.length = length then
    andThen (writeBody ck pl s.fresh) fun s₁ =>
    andThen (writeFooter (runningSum ck s₁) s₁) fun s₂ => .next (s₂.answer (.count length))
  else .refused .hostSequenceLength

/-- `ENC_WRITE` (R122). -/
def execEncWrite (srcOk : Bool) (length : Nat) (pl : List Byte) (s : State) :
    Host.Outcome State Fault Refusal :=
  encWriteWith Config.ck srcOk length pl s

/-- `ENC_RESET` (R120): `enc.frame_pos <- 0; ck_reset()`. -/
def execEncReset (s : State) : Host.Outcome State Fault Refusal :=
  .next (ckResetCall { s.fresh with enc := { s.enc with framePos := 0 } })

/-- `ENC_SIZE` (R130). -/
def execEncSize (s : State) : Host.Outcome State Fault Refusal :=
  .next (s.fresh.answer (.count s.enc.framePos))

/-- `ENC_DATA i` (R131): `if i < enc.frame_pos: return ebuf[i] else: refused`. -/
def execEncData (i : Nat) (s : State) : Host.Outcome State Fault Refusal :=
  if i < s.enc.framePos then
    andThen (loadCell .ebuf s.ecap s.enc.ebuf i) fun v => .next (s.fresh.answer (.byte v))
  else .refused .outsideEncoderView

end Sys2Proof.Machine
end

