-- ==== Sys2Proof/Machine/Wire.lean ====
section
/-! DEFINITION. The wire symbols of spec/30_encoding.md R73 as instructions: each is the arrival of its bytes at
the decoder, one `DEC_FEED` a byte (R142, R144; log 12). -/

namespace Sys2Proof.Machine

/-- `FLAG`, the byte 0x7E (R73; the decoder's reaction R146, R148, R149, R150). -/
def execFlag (s : State) : Host.Outcome State Fault Refusal := decFeedWith Config.ck Config.flag s

/-- `ESC`, the byte 0x7D (R73; the decoder's reaction R147, R151, R152, R153). -/
def execEsc (s : State) : Host.Outcome State Fault Refusal := decFeedWith Config.ck Config.esc s

/-- `DATA d` (R73; the decoder's reaction R147, R152, R153, R154). -/
def execData (d : Byte) (s : State) : Host.Outcome State Fault Refusal := decFeedWith Config.ck d s

/-- `ESCPAIR d`, the byte 0x7D and the byte `d` (R73; the decoder's reaction R151, R153, R78), with the two
`frame_complete` results in order. -/
def escpairWith (ck : Checksum) (d : Byte) (s : State) : Host.Outcome State Fault Refusal :=
  andThen (feed ck Config.esc s.fresh) fun r₀ =>
  andThen (feed ck d r₀.1) fun r₁ => .next (r₁.1.answer (.framesComplete r₀.2 r₁.2))

/-- `ESCPAIR d` (R73). -/
def execEscpair (d : Byte) (s : State) : Host.Outcome State Fault Refusal := escpairWith Config.ck d s

end Sys2Proof.Machine
end

