-- ==== Sys2Proof/Machine/Dispatch.lean ====
section
/-! DEFINITION. The meaning of an operation: one arm per row of spec/opcode_table.json. -/

namespace Sys2Proof.Machine

def exec (i : Instr) (s : State) : Host.Outcome State Fault Refusal :=
  match i with
  | .encReset => Sys2Proof.Machine.execEncReset s
  | .encWrite srcOk length pl => Sys2Proof.Machine.execEncWrite srcOk length pl s
  | .encSize => Sys2Proof.Machine.execEncSize s
  | .encData k => Sys2Proof.Machine.execEncData k s
  | .decReset => Sys2Proof.Machine.execDecReset s
  | .decFeed byte => Sys2Proof.Machine.execDecFeed byte s
  | .decAvail => Sys2Proof.Machine.execDecAvail s
  | .decSize => Sys2Proof.Machine.execDecSize s
  | .decRead1 => Sys2Proof.Machine.execDecRead1 s
  | .decReadn dstOk maxLen => Sys2Proof.Machine.execDecReadn dstOk maxLen s
  | .decData k => Sys2Proof.Machine.execDecData k s
  | .flag => Sys2Proof.Machine.execFlag s
  | .esc => Sys2Proof.Machine.execEsc s
  | .data d => Sys2Proof.Machine.execData d s
  | .escpair d => Sys2Proof.Machine.execEscpair d s
  | .ckReset => Sys2Proof.Machine.execCkReset s
  | .ckUpdate b => Sys2Proof.Machine.execCkUpdate b s
  | .ckCompute bytes => Sys2Proof.Machine.execCkCompute bytes s

end Sys2Proof.Machine
end

