-- ==== Sys2Proof/Machine/Step.lean ====
section
/-! DEFINITION. One step: the host's oldest pending request is decoded and run (spec/00_scope.md R16,
spec/20_memory.md R58; log 1). The hardware has no program counter and fetches nothing (R21). -/

namespace Sys2Proof.Machine

/-- One step. With nothing pending "the hardware does nothing until the host invokes an operation" (R241). Wire bytes
that have not arrived yet stay the oldest request (R88: "a chunk is fed byte by byte"). A request that selects no
operation is refused: an unassigned code (R86, R89) or operands that are not the code's (R84). -/
def step (s : State) : Host.Outcome State Fault Refusal :=
  match s.pending with
  | [] => .next s
  | r :: rest =>
    match decode r with
    | .ok (i, left) => exec i { s with pending := left ++ rest }
    | .error e => .refused (.badRequest e)

/-- The state whose next request is the one a word of the opcode table stands for (log 1, log 15). -/
def State.withFetchWord (s : State) (nbits w : Nat) : State :=
  { s with pending := tableRequest nbits w :: s.pending }

end Sys2Proof.Machine
end

