-- ==== Sys2Proof/Machine/Framing.lean ====
section
/-! DEFINITION. The wire format as functions on byte sequences (spec/30_encoding.md R70 to R74): what a frame is,
apart from the machine that builds or reads it. -/

namespace Sys2Proof.Machine

/-- `st(b)`, the wire form of an unescaped byte (R71). -/
def st (b : Byte) : List Byte := if detRsvd b then [Config.esc, xform b] else [b]

/-- `stuff(s)`, "the concatenation of `st(b)` for each `b` of `s` in order" (R72). -/
def stuff : List Byte → List Byte
  | [] => []
  | b :: bs => st b ++ stuff bs

/-- `W(p) = [0x7E] ++ stuff(p) ++ st(c[7:0]) ++ st(c[15:8]) ++ [0x7E]` with `c = CK(p)` (R72). -/
def frameOf (ck : Checksum) (p : List Byte) : List Byte :=
  [Config.flag] ++ stuff p ++ st (loByte (ck p)) ++ st (hiByte (ck p)) ++ [Config.flag]

/-- `r(s)`, the number of reserved bytes in `s` (R74). -/
def reservedCount (bs : List Byte) : Nat := bs.countP detRsvd

/-- Undo the escaping: the inverse of `stuff` (R79). A FLAG, or an ESC with nothing after it, is no stuffed
sequence. -/
def unstuff : List Byte → Option (List Byte)
  | [] => some []
  | [b] => if detRsvd b then none else some [b]
  | b :: d :: rest =>
    if detFlag b then none
    else if detEsc b then (unstuff rest).map (xform d :: ·)
    else (unstuff (d :: rest)).map (b :: ·)

end Sys2Proof.Machine
end

