-- ==== Sys2Proof/Machine/Pseudo.lean ====
section
/-! DEFINITION. The pseudo-operations of spec/30_encoding.md R88, "each an abbreviation with its expansion and no
behaviour of its own", and the running of a sequence of operations in the order the host invokes them (R58). -/

namespace Sys2Proof.Machine

/-- Run operations one after another, collecting their results in order. -/
def execSeq : List Instr → State → Host.Outcome (State × List Result) Fault Refusal
  | [], s => .next (s, [])
  | i :: is, s =>
    andThen (exec i s) fun t =>
    andThen (execSeq is t) fun r => .next (r.1, t.report.result :: r.2)

/-- `DEC_FEEDS [b0 b1 ... bk]`: `DEC_FEED b0; DEC_FEED b1; ...`. -/
def decFeeds (bs : List Byte) : List Instr := bs.map .decFeed

/-- `ENC_FRAME`: `ENC_SIZE -> size`, then `ENC_DATA i` for `i` from 0 to `size-1`. -/
def encFrame (size : Nat) : List Instr := .encSize :: (List.range size).map .encData

/-- `DEC_DRAIN_ALL`: `DEC_AVAIL -> a`, then `DEC_READN 1, a`. -/
def decDrainAll (a : Nat) : List Instr := [.decAvail, .decReadn true a]

end Sys2Proof.Machine
end

