-- ==== Sys2Proof/Safety.lean ====
section
/-! DEFINITION. The terms claims are stated in: what a buffer holds, the invariant of every reachable state
(spec/48_laws.md R190 to R194), the decoder's transition graph (spec/43_decoder_feed.md R165), and what an
accepted `ENC_WRITE` does at its outward interfaces (spec/42_encoder.md R122). -/

namespace Sys2Proof.Machine

/-! ## Buffers -/

/-- From cell `i` on the buffer holds the bytes `bs`, in order. -/
abbrev Memory.holds (m : Memory) (i : Nat) (bs : List Byte) : Prop :=
  ∀ k, k < bs.length → m.read (i + k) = bs[k]?

/-- Cells `[i, i+n)` have been written. -/
abbrev Memory.written (m : Memory) (i n : Nat) : Prop :=
  ∀ k, k < n → (m.read (i + k)).isSome = true

/-- The buffer is in canonical form and has no cell outside its `cap` cells. -/
def Memory.fits (m : Memory) (cap : Nat) : Bool := m.wf && m.all (fun c => decide (c.1 < cap))

/-! ## The invariant -/

/-- Encoder invariant: `0 <= enc.frame_pos <= ECAP` (R193), and `ebuf` shows no frame or the whole of one
well-formed frame of an acceptable payload (R125, R129). -/
structure EncInv (s : State) : Prop where
  fits : s.enc.ebuf.fits s.ecap = true
  bound : s.enc.framePos ≤ s.ecap
  frame : s.enc.framePos = 0 ∨ ∃ p : List Byte, 0 < p.length ∧ p.length ≤ s.params.encP ∧
    s.enc.framePos = (frameOf Config.ck p).length ∧ s.enc.ebuf.holds 0 (frameOf Config.ck p)

/-- Decoder invariant: R191 (cell 0), R192, R193, R194 (the bounds), and R204 (what a later operation may read
has been written). -/
structure DecInv (s : State) : Prop where
  fitsA : s.dec.abuf.fits s.dcap = true
  fitsR : s.dec.rbuf.fits s.dcap = true
  bound : s.dec.framePos ≤ s.dcap
  idle : s.dec.framePos = 0 → s.dec.inEscape = false
  head : 0 < s.dec.framePos → s.dec.abuf.read 0 = some Config.flag
  taken : s.dec.abuf.written 0 s.dec.framePos
  avail : s.dec.availableLen ≤ s.dcap - 3
  tail : s.dec.readPos + s.dec.availableLen ≤ s.dcap - 2
  cursor : (s.dec.readPos = 0 ∧ s.dec.availableLen = 0) ∨ 0 < s.dec.readPos
  undrained : s.ready.written s.dec.readPos s.dec.availableLen

/-- The invariant of every reachable state. -/
structure CodecInv (s : State) : Prop where
  enc : EncInv s
  dec : DecInv s

/-- The ready buffer shows nothing, or its undrained bytes are the tail of a payload that stands in `rbuf` with
its matching checksum (R194). R194 is a rule for the separate ready buffer. -/
def ReadyFrameInv (s : State) : Prop :=
  s.params.sharedRbuf = false →
    (s.dec.readPos = 0 ∧ s.dec.availableLen = 0) ∨
    ∃ p : List Byte, s.dec.readPos + s.dec.availableLen = 1 + p.length ∧ 0 < s.dec.readPos ∧
      s.dec.rbuf.holds 0 ([Config.flag] ++ p ++ [loByte (Config.ck p), hiByte (Config.ck p)])

/-! ## The decoder's transition graph (R165) -/

/-- The next `(frame_pos, in_escape)` for a byte of class `c` in state `(f, e)`, read off R165. -/
def graphNext (dcap f : Nat) (e : Bool) : ByteClass → Nat × Bool
  | .flag => if f = 0 then (1, false) else if f = 1 then (1, e) else (0, false)
  | .esc =>
    if f = 0 then (0, false)
    else if e then (if f < dcap then (f + 1, false) else (0, false))
    else (f, true)
  | .data => if f = 0 then (0, false) else if f < dcap then (f + 1, false) else (0, false)

/-- The stored bytes carry a matching checksum: `f >= 3` and `CK(abuf[1 .. f-3]) = (abuf[f-1] << 8) | abuf[f-2]`
(R155, R200). -/
def ChecksumMatches (s : State) : Prop :=
  ∃ (p : List Byte) (l h : Byte), p.length + 3 = s.dec.framePos ∧
    s.dec.abuf.holds 1 (p ++ [l, h]) ∧ Config.ck p = assemble h l

/-! ## An accepted ENC_WRITE at its outward interfaces (R122) -/

/-- The accesses of the payload loop: each byte is read once, in increasing offset, and folded raw. -/
def payloadAccesses (ck : Checksum) (pl : List Byte) : List Access :=
  (List.range pl.length).flatMap fun i =>
    [.memRead i (pl.getD i 0), .ckUpdate (pl.getD i 0) (ck (pl.take (i + 1)))]

/-- The accesses of `DEC_READN`'s loop: byte `k` of `out` to offset `k` (R175). -/
def drainAccesses (out : List Byte) : List Access :=
  (List.range out.length).map fun k => .memWrite k (out.getD k 0)

end Sys2Proof.Machine

namespace Sys2Proof

/-! ## Requests -/

/-- The wire bytes of a request. -/
def Request.wireBytes : Request → List Byte
  | .hostOp _ _ => []
  | .ckPort _ _ => []
  | .wire first more => first :: more

/-! ## Groups of operations -/

/-- Operations that only look: "Operations with no side effect" (R57). -/
def Instr.isView : Instr → Bool
  | .encSize | .encData _ | .decAvail | .decSize | .decData _ => true
  | .encReset | .encWrite _ _ _ | .decReset | .decFeed _ | .decRead1 | .decReadn _ _ | .flag | .esc | .data _
  | .escpair _ | .ckReset | .ckUpdate _ | .ckCompute _ => false

/-- Operations of ENC, its checksum calls among them (R36, R111, R112). -/
def Instr.isEnc : Instr → Bool
  | .encReset | .encWrite _ _ _ | .encSize | .encData _ | .ckReset | .ckUpdate _ => true
  | .decReset | .decFeed _ | .decAvail | .decSize | .decRead1 | .decReadn _ _ | .decData _ | .flag | .esc
  | .data _ | .escpair _ | .ckCompute _ => false

/-- Operations of DEC, its checksum call among them (R36, R113). -/
def Instr.isDec (i : Instr) : Bool := !i.isEnc

/-- The drains and views of DEC's payload side (44_decoder_drain.md). -/
def Instr.isDrain : Instr → Bool
  | .decAvail | .decSize | .decRead1 | .decReadn _ _ | .decData _ => true
  | .encReset | .encWrite _ _ _ | .encSize | .encData _ | .decReset | .decFeed _ | .flag | .esc | .data _
  | .escpair _ | .ckReset | .ckUpdate _ | .ckCompute _ => false

end Sys2Proof
end

