-- ==== Sys2Proof/Certificates/Slice0/Obligations.lean ====
section
/-! DEFINITION. The statements for the provers, family by family: reset, ENC, the checksum port, DET and the wire
format, the rows of DEC_FEED, the wire symbols, the drains, the encodings, the step, and the laws over every
operation. `report.conds` and `report.bus` are the model's own record of what R218 calls ghost information and of
the outward accesses of R13 and R15 (log 2, log 17). -/

open Sys2Proof Sys2Proof.Machine

/-! ## Reset -/

/-- R35, R240: what reset leaves (the values are the spec's own decision D7; log 10). -/
def Obligations.ResetLeavesIdleAndUnwritten : Prop :=
  State.reset.enc.framePos = 0 ∧ State.reset.enc.ckAcc = [] ∧
  State.reset.dec.framePos = 0 ∧ State.reset.dec.inEscape = false ∧
  State.reset.dec.readPos = 0 ∧ State.reset.dec.availableLen = 0 ∧
  (∀ i, State.reset.enc.ebuf.read i = none ∧ State.reset.dec.abuf.read i = none ∧
    State.reset.dec.rbuf.read i = none)

/-- R120, R240: `ENC_RESET`, with its whole next state; it does not touch the decoder. -/
def Obligations.EncResetClearsCursorAndChecksum : Prop :=
  ∀ s : State, exec .encReset s = .next { s with
    enc := { s.enc with framePos := 0, ckAcc := [] }
    report := ⟨.unit, [], [.ckReset]⟩ }

/-- R140, R240: `DEC_RESET`, with its whole next state; the buffers and the encoder are not written. -/
def Obligations.DecResetClearsCursorsAndFlag : Prop :=
  ∀ s : State, exec .decReset s = .next { s with
    dec := { s.dec with framePos := 0, inEscape := false, readPos := 0, availableLen := 0 }
    report := ⟨.unit, [], []⟩ }

/-! ## ENC -/

/-- R123, R211: a rejected `ENC_WRITE` returns 0, reads nothing, calls nothing and changes nothing; and a `length`
of exactly `ENC_P` is not rejected. -/
def Obligations.EncWriteRejectedChangesNothing : Prop :=
  (∀ (s : State) (srcOk : Bool) (length : Nat) (pl : List Byte),
    srcOk = false ∨ length = 0 ∨ s.params.encP < length →
    exec (.encWrite srcOk length pl) s = .next { s with report := ⟨.count 0, [.encReject], []⟩ }) ∧
  (∀ (s : State) (pl : List Byte), 0 < pl.length → pl.length = s.params.encP →
    ∃ t, exec (.encWrite true pl.length pl) s = .next t ∧ t.report.result = .count pl.length)

/-- R122, R124, R125, R128: an accepted `ENC_WRITE` completes, resets the checksum before anything else, leaves the
well-formed frame of the payload from cell 0 on and every cell above it as before, and returns `length`. -/
def Obligations.EncWriteLeavesTheFrame : Prop :=
  ∀ (s : State) (length : Nat) (pl : List Byte),
    0 < length → length ≤ s.params.encP → pl.length = length →
    ∃ t, exec (.encWrite true length pl) s = .next t ∧
      t.enc.framePos = (frameOf Config.ck pl).length ∧
      t.enc.ebuf.holds 0 (frameOf Config.ck pl) ∧
      (∀ a, t.enc.framePos ≤ a → t.enc.ebuf.read a = s.enc.ebuf.read a) ∧
      t.enc.ckAcc = pl ∧ t.report.bus.head? = some .ckReset ∧
      t.report.result = .count length ∧ t.report.conds = []

/-- R36, R124, R205: what `ENC_WRITE` leaves alone: the decoder, the parameters, the requests; every cell of
`ebuf` but those of the frame it stores, which are the cells below the frame's length; and every cell and register
when it is rejected. -/
def Obligations.EncWriteFrame : Prop :=
  ∀ (s t : State) (srcOk : Bool) (length : Nat) (pl : List Byte),
    exec (.encWrite srcOk length pl) s = .next t →
    t.dec = s.dec ∧ t.params = s.params ∧ t.pending = s.pending ∧
    (writeRejected srcOk length s = true → t.enc = s.enc) ∧
    (writeRejected srcOk length s = false →
      ∀ a, (frameOf Config.ck pl).length ≤ a → t.enc.ebuf.read a = s.enc.ebuf.read a)

/-- R122, R52, R111, R112: what an accepted `ENC_WRITE` does outside: one `ck_reset`, then each payload byte read
once in increasing offset and folded raw; nothing else. -/
def Obligations.EncWriteOutwardAccesses : Prop :=
  ∀ (s : State) (length : Nat) (pl : List Byte),
    0 < length → length ≤ s.params.encP → pl.length = length →
    ∃ t, exec (.encWrite true length pl) s = .next t ∧
      t.report.bus = .ckReset :: payloadAccesses Config.ck pl

/-- R129, R74: the size of the frame an accepted `ENC_WRITE` leaves, and its bounds; the last store is below
`ECAP` (R135 prints another size for one corner case; log 21). -/
def Obligations.EncWriteSizeWithinBuffer : Prop :=
  ∀ (s : State) (length : Nat) (pl : List Byte),
    0 < length → length ≤ s.params.encP → pl.length = length →
    ∃ t, exec (.encWrite true length pl) s = .next t ∧
      t.enc.framePos = length + reservedCount pl +
        reservedCount [loByte (Config.ck pl), hiByte (Config.ck pl)] + 4 ∧
      length + 4 ≤ t.enc.framePos ∧ t.enc.framePos ≤ 2 * length + 6 ∧ t.enc.framePos ≤ s.ecap

/-- R121: an accepted `ENC_WRITE` depends on its operands alone: two cores of the same capacities with any pasts
show the same frame, size, checksum state and report. -/
def Obligations.EncWriteForgetsThePast : Prop :=
  ∀ (s s' t t' : State) (length : Nat) (pl : List Byte),
    s.params = s'.params → 0 < length → length ≤ s.params.encP →
    exec (.encWrite true length pl) s = .next t → exec (.encWrite true length pl) s' = .next t' →
    t.enc.framePos = t'.enc.framePos ∧ t.enc.ckAcc = t'.enc.ckAcc ∧ t.report = t'.report ∧
    ∀ a, a < t.enc.framePos → t.enc.ebuf.read a = t'.enc.ebuf.read a

/-- R130: `ENC_SIZE`, with its whole next state. -/
def Obligations.EncSizeReturnsTheCursor : Prop :=
  ∀ s : State, exec .encSize s = .next { s with report := ⟨.count s.enc.framePos, [], []⟩ }

/-- R131: `ENC_DATA i` inside the view returns the cell and changes nothing; outside the view it is refused. -/
def Obligations.EncDataShowsTheView : Prop :=
  (∀ (s : State) (i : Nat) (v : Byte), i < s.enc.framePos → i < s.ecap → s.enc.ebuf.read i = some v →
    exec (.encData i) s = .next { s with report := ⟨.byte v, [], []⟩ }) ∧
  (∀ (s : State) (i : Nat), s.enc.framePos ≤ i → exec (.encData i) s = .refused .outsideEncoderView)

/-- R88, R125, R131: `ENC_FRAME` after an accepted `ENC_WRITE` reads the well-formed frame out, byte by byte. -/
def Obligations.EncFrameReadsTheFrameOut : Prop :=
  ∀ (s : State) (length : Nat) (pl : List Byte),
    0 < length → length ≤ s.params.encP → pl.length = length →
    ∃ t u, exec (.encWrite true length pl) s = .next t ∧
      execSeq (encFrame t.enc.framePos) t = .next (u,
        .count (frameOf Config.ck pl).length :: (frameOf Config.ck pl).map .byte) ∧
      u.enc = t.enc ∧ u.dec = t.dec

/-! ## The checksum port -/

/-- R111: `CK_RESET`, with its whole next state. -/
def Obligations.CkResetEmptiesTheAccumulator : Prop :=
  ∀ s : State, exec .ckReset s = .next { s with
    enc := { s.enc with ckAcc := [] }, report := ⟨.unit, [], [.ckReset]⟩ }

/-- R112: `CK_UPDATE b`, with its whole next state. -/
def Obligations.CkUpdateFoldsOneByte : Prop :=
  ∀ (s : State) (b : Byte), exec (.ckUpdate b) s = .next { s with
    enc := { s.enc with ckAcc := s.enc.ckAcc ++ [b] }
    report := ⟨.sum (Config.ck (s.enc.ckAcc ++ [b])), [],
      [.ckUpdate b (Config.ck (s.enc.ckAcc ++ [b]))]⟩ }

/-- R113: `CK_COMPUTE seq`, with its whole next state: no state of the hardware is written. -/
def Obligations.CkComputeIsStateless : Prop :=
  ∀ (s : State) (bs : List Byte), exec (.ckCompute bs) s =
    .next { s with report := ⟨.sum (Config.ck bs), [], [.ckCompute bs (Config.ck bs)]⟩ }

/-- R114: after `ck_reset()` and the folding of any non-empty sequence, the value last returned is that of the
one-shot form. -/
def Obligations.CkRunningFormEqualsOneShot : Prop :=
  ∀ (s : State) (bs : List Byte) (b : Byte),
    ∃ t rs u, execSeq (.ckReset :: (bs ++ [b]).map .ckUpdate) s = .next (t, rs) ∧
      rs.getLast? = some (.sum (Config.ck (bs ++ [b]))) ∧
      exec (.ckCompute (bs ++ [b])) t = .next u ∧ u.report.result = .sum (Config.ck (bs ++ [b]))

/-! ## DET and the wire format -/

/-- R100, R101, R102, R103: the comparators, the classes and the transform, on every byte. -/
def Obligations.DetectorOnEveryByte : Prop :=
  ∀ b : Byte,
    (detFlag b = true ↔ b = 0x7E) ∧ (detEsc b = true ↔ b = 0x7D) ∧
    (detFlag b && detEsc b) = false ∧
    (detRsvd b = true ↔ b = 0x7E ∨ b = 0x7D) ∧
    (classify b = .flag ↔ b = 0x7E) ∧ (classify b = .esc ↔ b = 0x7D) ∧
    (classify b = .data ↔ b ≠ 0x7E ∧ b ≠ 0x7D) ∧
    xform b = b ^^^ 0x20 ∧ xform (xform b) = b

/-- R79: what a well-formed frame never contains, and that un-stuffing it gives the payload and the two checksum
bytes back, for every payload and every checksum function. -/
def Obligations.FrameIsUnambiguous : Prop :=
  ∀ (ck : Checksum) (p : List Byte),
    (frameOf ck p).count 0x7E = 2 ∧ (frameOf ck p).head? = some 0x7E ∧ (frameOf ck p).getLast? = some 0x7E ∧
    (∀ i : Nat, (frameOf ck p)[i]? = some (0x7D : Byte) →
      (frameOf ck p)[i + 1]? = some (0x5E : Byte) ∨ (frameOf ck p)[i + 1]? = some (0x5D : Byte)) ∧
    4 ≤ (frameOf ck p).length ∧
    (∃ body, frameOf ck p = [0x7E] ++ body ++ [0x7E] ∧
      unstuff body = some (p ++ [loByte (ck p), hiByte (ck p)]))

/-! ## DEC_FEED, row by row -/

/-- R146 (T1): a FLAG while Idle opens a frame, with its whole next state; `dec.in_escape` is false before and
after. -/
def Obligations.FeedFlagOpensFrame : Prop :=
  ∀ s : State, s.dec.framePos = 0 →
    exec (.decFeed 0x7E) s = .next { s with
      dec := { s.dec with abuf := s.dec.abuf.write 0 0x7E, framePos := 1 }
      report := ⟨.frameComplete false, [], []⟩ } ∧
    (CodecInv s → s.dec.inEscape = false)

/-- R147 (T2): any other byte while Idle is ignored. -/
def Obligations.FeedIgnoresNoiseWhileIdle : Prop :=
  ∀ (s : State) (b : Byte), s.dec.framePos = 0 → b ≠ 0x7E →
    exec (.decFeed b) s = .next { s with report := ⟨.frameComplete false, [], []⟩ }

/-- R148 (T3): a FLAG directly after the opening FLAG is ignored and `dec.in_escape` keeps its value (the spec's
decision D4; log 11). -/
def Obligations.FeedIgnoresSecondFlag : Prop :=
  ∀ s : State, s.dec.framePos = 1 →
    exec (.decFeed 0x7E) s = .next { s with report := ⟨.frameComplete false, [], []⟩ }

/-- R150, R212 (T5): a FLAG after one stored byte drops the frame. -/
def Obligations.FeedDropsShortFrame : Prop :=
  ∀ s : State, s.dec.framePos = 2 → exec (.decFeed 0x7E) s = .next { s with
    dec := { s.dec with framePos := 0, inEscape := false }
    report := ⟨.frameComplete false, [.decShort], []⟩ }

/-- R151 (T6): an ESC while not escaping sets the flag and stores nothing, at a full buffer too (the spec's
decision D5; log 11). -/
def Obligations.FeedEscapeSetsTheFlag : Prop :=
  ∀ s : State, 0 < s.dec.framePos → s.dec.inEscape = false → exec (.decFeed 0x7D) s = .next { s with
    dec := { s.dec with inEscape := true }
    report := ⟨.frameComplete false, [], []⟩ }

/-- R152 (T8): a byte that would have to be stored while the buffer is full drops the frame. That this row goes before
the un-escaping store is the order of R143, the spec's decisions D3 and D5 (log 11). -/
def Obligations.FeedOverflowDropsFrame : Prop :=
  ∀ (s : State) (b : Byte), s.dcap ≤ s.dec.framePos → b ≠ 0x7E → (b = 0x7D → s.dec.inEscape = true) →
    exec (.decFeed b) s = .next { s with
      dec := { s.dec with framePos := 0, inEscape := false }
      report := ⟨.frameComplete false, [.decOverflow], []⟩ }

/-- R153 (T7): the byte after an ESC is stored xor 0x20, whatever it is, and the flag is cleared. -/
def Obligations.FeedStoresUnescapedByte : Prop :=
  ∀ (s : State) (b : Byte), 1 ≤ s.dec.framePos → s.dec.framePos < s.dcap → b ≠ 0x7E → s.dec.inEscape = true →
    exec (.decFeed b) s = .next { s with
      dec := { s.dec with
        abuf := s.dec.abuf.write s.dec.framePos (b ^^^ 0x20), framePos := s.dec.framePos + 1, inEscape := false }
      report := ⟨.frameComplete false, [], []⟩ }

/-- R154 (T9): a DATA byte while not escaping is stored as it is. -/
def Obligations.FeedStoresPlainByte : Prop :=
  ∀ (s : State) (b : Byte), 1 ≤ s.dec.framePos → s.dec.framePos < s.dcap → b ≠ 0x7E → b ≠ 0x7D →
    s.dec.inEscape = false →
    exec (.decFeed b) s = .next { s with
      dec := { s.dec with abuf := s.dec.abuf.write s.dec.framePos b, framePos := s.dec.framePos + 1 }
      report := ⟨.frameComplete false, [], []⟩ }

/-- R149, R155, R156 (T4, match): a FLAG that closes a frame whose checksum matches publishes it, whatever
`dec.in_escape` is (R158). The cells `[0, f)` of the ready buffer read as those of `abuf`, the cells above are as
before, and with `SHARED_RBUF` nothing is copied (D6; log 4). -/
def Obligations.FeedAcceptsMatchingFrame : Prop :=
  ∀ (s : State) (p : List Byte) (l h : Byte),
    s.dec.framePos = p.length + 3 → s.dec.framePos ≤ s.dcap → (s.dec.abuf.read 0).isSome = true →
    s.dec.abuf.holds 1 (p ++ [l, h]) → Config.ck p = assemble h l →
    ∃ t, exec (.decFeed 0x7E) s = .next t ∧
      t.dec.framePos = 0 ∧ t.dec.inEscape = false ∧ t.dec.readPos = 1 ∧ t.dec.availableLen = p.length ∧
      t.dec.abuf = s.dec.abuf ∧
      (∀ a, a < p.length + 3 → t.ready.read a = s.dec.abuf.read a) ∧
      (∀ a, p.length + 3 ≤ a → t.dec.rbuf.read a = s.dec.rbuf.read a) ∧
      (s.params.sharedRbuf = true → t.dec.rbuf = s.dec.rbuf) ∧
      t.enc = s.enc ∧ t.params = s.params ∧ t.pending = s.pending ∧
      t.report = ⟨.frameComplete true, [], [.ckCompute p (Config.ck p)]⟩

/-- R149, R155, R157, R214 (T4, mismatch): a FLAG that closes a frame whose checksum differs drops it. -/
def Obligations.FeedDropsMismatchedFrame : Prop :=
  ∀ (s : State) (p : List Byte) (l h : Byte),
    s.dec.framePos = p.length + 3 → s.dec.framePos ≤ s.dcap →
    s.dec.abuf.holds 1 (p ++ [l, h]) → Config.ck p ≠ assemble h l →
    exec (.decFeed 0x7E) s = .next { s with
      dec := { s.dec with framePos := 0, inEscape := false }
      report := ⟨.frameComplete false, [.decBadsum], [.ckCompute p (Config.ck p)]⟩ }

/-- R165: from every state of the invariant every byte completes, the next `(frame_pos, in_escape)` is the
transition graph's, and `frame_complete` is true exactly for a FLAG whose stored bytes carry a matching checksum
(R200). -/
def Obligations.FeedFollowsTheTransitionGraph : Prop :=
  ∀ (s : State) (b : Byte), CodecInv s →
    ∃ t r, exec (.decFeed b) s = .next t ∧ t.report.result = .frameComplete r ∧
      (t.dec.framePos, t.dec.inEscape) = graphNext s.dcap s.dec.framePos s.dec.inEscape (classify b) ∧
      (r = true ↔ b = 0x7E ∧ ChecksumMatches s)

/-- R161, R36: what `DEC_FEED` leaves alone. The encoder, the parameters and the requests always; the whole ready
side unless `frame_complete` is true; every cell of `abuf` but the one at the cursor, and that one too when the
cursor does not advance. -/
def Obligations.FeedFrame : Prop :=
  ∀ (s t : State) (b : Byte), exec (.decFeed b) s = .next t →
    t.enc = s.enc ∧ t.params = s.params ∧ t.pending = s.pending ∧
    (t.report.result = .frameComplete false →
      t.dec.rbuf = s.dec.rbuf ∧ t.dec.readPos = s.dec.readPos ∧ t.dec.availableLen = s.dec.availableLen) ∧
    (∀ a, a ≠ s.dec.framePos → t.dec.abuf.read a = s.dec.abuf.read a) ∧
    (t.dec.framePos ≠ s.dec.framePos + 1 → ∀ a, t.dec.abuf.read a = s.dec.abuf.read a)

/-! ## The wire symbols as instructions -/

/-- R73, R144: the one-byte symbols are the feeding of their byte, and complete in every state of the invariant
(the reading of a symbol as an instruction is the model's; log 12). -/
def Obligations.WireSymbolsFeedTheirByte : Prop :=
  ∀ (s : State) (d : Byte), CodecInv s → dataWf d = true →
    (∃ t, exec .flag s = .next t ∧ exec (.decFeed 0x7E) s = .next t ∧
      (t.dec.framePos, t.dec.inEscape) = graphNext s.dcap s.dec.framePos s.dec.inEscape .flag) ∧
    (∃ t, exec .esc s = .next t ∧ exec (.decFeed 0x7D) s = .next t ∧
      (t.dec.framePos, t.dec.inEscape) = graphNext s.dcap s.dec.framePos s.dec.inEscape .esc) ∧
    (∃ t, exec (.data d) s = .next t ∧ exec (.decFeed d) s = .next t ∧
      (t.dec.framePos, t.dec.inEscape) = graphNext s.dcap s.dec.framePos s.dec.inEscape .data)

/-- R73, R76, R151, R153: an escaped pair taken while not escaping stores the second byte xor 0x20 as one
unescaped byte, with its whole next state (log 12). -/
def Obligations.EscPairStoresXoredByte : Prop :=
  ∀ (s : State) (d : Byte), 1 ≤ s.dec.framePos → s.dec.framePos < s.dcap → s.dec.inEscape = false → d ≠ 0x7E →
    exec (.escpair d) s = .next { s with
      dec := { s.dec with
        abuf := s.dec.abuf.write s.dec.framePos (d ^^^ 0x20), framePos := s.dec.framePos + 1 }
      report := ⟨.framesComplete false false, [], []⟩ }

/-- R73, R78: in every state of the invariant an escaped pair is the feeding of its two bytes, one after the other
(log 12). -/
def Obligations.EscPairIsTwoFeeds : Prop :=
  ∀ (s : State) (d : Byte), CodecInv s →
    ∃ u v t r₀ r₁, exec (.decFeed 0x7D) s = .next u ∧ u.report.result = .frameComplete r₀ ∧
      exec (.decFeed d) u = .next v ∧ v.report.result = .frameComplete r₁ ∧
      exec (.escpair d) s = .next t ∧ t.report.result = .framesComplete r₀ r₁ ∧
      t.dec = v.dec ∧ t.enc = s.enc ∧ t.params = s.params ∧ t.pending = s.pending

/-! ## The drains -/

/-- R170, R171: `DEC_AVAIL` and its alias `DEC_SIZE`, with their whole next state. -/
def Obligations.AvailAndSizeReturnTheCount : Prop :=
  ∀ s : State,
    exec .decAvail s = .next { s with report := ⟨.count s.dec.availableLen, [], []⟩ } ∧
    exec .decSize s = .next { s with report := ⟨.count s.dec.availableLen, [], []⟩ }

/-- R173: `DEC_READ1` with data available, with its whole next state. -/
def Obligations.ReadOneTakesTheOldestByte : Prop :=
  ∀ (s : State) (v : Byte), 0 < s.dec.availableLen → s.dec.readPos < s.dcap →
    s.ready.read s.dec.readPos = some v →
    exec .decRead1 s = .next { s with
      dec := { s.dec with readPos := s.dec.readPos + 1, availableLen := s.dec.availableLen - 1 }
      report := ⟨.byte v, [], []⟩ }

/-- R174: `DEC_READ1` with nothing available returns the sentinel zero and changes nothing. -/
def Obligations.ReadOneEmptyReturnsZero : Prop :=
  ∀ s : State, s.dec.availableLen = 0 →
    exec .decRead1 s = .next { s with report := ⟨.byte 0x00, [.drainEmpty], []⟩ }

/-- R175: `DEC_READN`. Without a destination or room it returns 0 and changes nothing; otherwise it delivers
`min(max_len, available_len)` bytes from the read cursor in order, byte `k` to offset `k`, and moves the cursor and
the count, with its whole next state. The labels in it are the model's: DRAIN_NOARG alone in the first case, even with
nothing available, and DRAIN_EMPTY in the second when nothing is (log 17). -/
def Obligations.ReadManyCopiesAndAdvances : Prop :=
  (∀ (s : State) (dstOk : Bool) (maxLen : Nat), maxLen = 0 ∨ dstOk = false →
    exec (.decReadn dstOk maxLen) s = .next { s with report := ⟨.copied 0 [], [.drainNoarg], []⟩ }) ∧
  (∀ (s : State) (maxLen : Nat) (out : List Byte), 0 < maxLen →
    out.length = min maxLen s.dec.availableLen → s.ready.holds s.dec.readPos out →
    s.dec.readPos + out.length ≤ s.dcap →
    exec (.decReadn true maxLen) s = .next { s with
      dec := { s.dec with
        readPos := s.dec.readPos + out.length, availableLen := s.dec.availableLen - out.length }
      report := ⟨.copied out.length out, if s.dec.availableLen = 0 then [.drainEmpty] else [],
        drainAccesses out⟩ })

/-- R176: a `DEC_READN` of `n` available bytes has the effect and delivers the bytes of `n` successive
`DEC_READ1`. -/
def Obligations.ReadManyEqualsRepeatedReadOne : Prop :=
  ∀ (s : State) (n : Nat), CodecInv s → 0 < n → n ≤ s.dec.availableLen →
    ∃ t u out, exec (.decReadn true n) s = .next t ∧ t.report.result = .copied n out ∧ out.length = n ∧
      execSeq (List.replicate n .decRead1) s = .next (u, out.map .byte) ∧ u.dec = t.dec ∧ u.enc = t.enc

/-- R177: `DEC_DATA k` inside the undrained bytes returns the byte and changes nothing; outside it is refused. -/
def Obligations.DecDataLooksAhead : Prop :=
  (∀ (s : State) (k : Nat) (v : Byte), k < s.dec.availableLen → s.dec.readPos + k < s.dcap →
    s.ready.read (s.dec.readPos + k) = some v →
    exec (.decData k) s = .next { s with report := ⟨.byte v, [], []⟩ }) ∧
  (∀ (s : State) (k : Nat), s.dec.availableLen ≤ k → exec (.decData k) s = .refused .outsideDecoderView)

/-- R178, R36 and the opening of 44_decoder_drain.md: no drain or view of the payload side touches the frame in
progress, the contents of either buffer or the encoder, and the sum `read_pos + available_len` stays. -/
def Obligations.DrainsKeepFrameInProgressAndSum : Prop :=
  ∀ (i : Instr) (s t : State), i.isDrain = true → exec i s = .next t →
    t.dec.framePos = s.dec.framePos ∧ t.dec.inEscape = s.dec.inEscape ∧
    t.dec.abuf = s.dec.abuf ∧ t.dec.rbuf = s.dec.rbuf ∧ t.enc = s.enc ∧
    t.dec.readPos + t.dec.availableLen = s.dec.readPos + s.dec.availableLen

/-! ## Encodings -/

/-- R84, R89, R73, R85: decoding the encoding of any well-formed operation gives the operation back, with every
operand, and leaves nothing of the request (the request form is the model's; log 14). -/
def Obligations.DecodeOfEncodeIsTheOperation : Prop :=
  ∀ i : Instr, i.wellFormed = true → decode (encode i) = .ok (i, [])

/-- R84, R89, R73, R78: a request that decodes as a whole is the encoding of what it decodes to, so no two requests
select one operation; and every stretch of wire bytes decodes, to a symbol and the bytes still to arrive, no byte
lost (the request form is the model's; log 14). -/
def Obligations.EncodeOfDecodeIsTheRequest : Prop :=
  (∀ (r : Request) (i : Instr), decode r = .ok (i, []) → encode i = r) ∧
  (∀ (first : Byte) (more : List Byte), ∃ i left, decode (.wire first more) = .ok (i, left) ∧
    (encode i).wireBytes ++ left.flatMap Request.wireBytes = first :: more)

/-- R84, R89, R73: codes and symbols written out from the tables decode to their operations (the codes are the spec's
decision D16; the typed operand lists are the model's, log 14), and of two DATA bytes the second is still to arrive (the
model's choice; log 14). -/
def Obligations.WrittenOutCodesDecode : Prop :=
  decode (.hostOp 0b0000#4 []) = .ok (.encReset, []) ∧
  decode (.hostOp 0b0001#4 [.bit true, .nat 3, .bytes [0x01, 0x7E, 0x02]]) =
    .ok (.encWrite true 3 [0x01, 0x7E, 0x02], []) ∧
  decode (.hostOp 0b1001#4 [.byte 0x7E]) = .ok (.decFeed 0x7E, []) ∧
  decode (.hostOp 0b1101#4 [.bit true, .nat 5]) = .ok (.decReadn true 5, []) ∧
  decode (.wire 0b01111110#8 []) = .ok (.flag, []) ∧
  decode (.wire 0b01111101#8 []) = .ok (.esc, []) ∧
  decode (.wire 0x41 []) = .ok (.data 0x41, []) ∧
  decode (.wire 0x41 [0x42]) = .ok (.data 0x41, [.wire 0x42 []]) ∧
  decode (.wire 0b01111101#8 [0x5E]) = .ok (.escpair 0x5E, []) ∧
  decode (.ckPort 0b10#2 [.bytes [0x01, 0x02]]) = .ok (.ckCompute [0x01, 0x02], [])

/-- R86, R89: an unassigned code selects no operation, whatever stands beside it, and a step refuses it. -/
def Obligations.UnassignedCodesAreRefused : Prop :=
  ∀ (s : State) (rest : List Request) (args : List Arg) (op : BitVec 4),
    (op = 0b0100#4 ∨ op = 0b0101#4 ∨ op = 0b0110#4 ∨ op = 0b0111#4 ∨ op = 0b1111#4) →
    step { s with pending := .hostOp op args :: rest } = .refused (.badRequest .unassignedHostOp) ∧
    step { s with pending := .ckPort 0b11#2 args :: rest } = .refused (.badRequest .unassignedCkPort)

/-! ## The step -/

/-- R16, R58, R88, R241: a step runs the operation the host's oldest request selects, and that request is gone but
for the wire bytes still to arrive; a request that selects none is refused; with no operation invoked the hardware
does nothing (the queue of requests is the model's; log 1). -/
def Obligations.StepRunsTheOldestRequest : Prop :=
  (∀ (s : State) (r : Request) (rest left : List Request) (i : Instr), s.pending = r :: rest →
    decode r = .ok (i, left) → step s = exec i { s with pending := left ++ rest }) ∧
  (∀ (s : State) (r : Request) (rest : List Request) (e : DecodeError), s.pending = r :: rest →
    decode r = .error e → step s = .refused (.badRequest e)) ∧
  (∀ s : State, s.pending = [] → step s = .next s)

/-! ## Laws over every operation -/

/-- R57, R36: the views change nothing but what they present. -/
def Obligations.ViewsChangeNothing : Prop :=
  ∀ (i : Instr) (s t : State), i.isView = true → exec i s = .next t →
    t.enc = s.enc ∧ t.dec = s.dec ∧ t.params = s.params ∧ t.pending = s.pending ∧
    t.report.conds = [] ∧ t.report.bus = []

/-- R205, R36: no operation of ENC changes the decoder and no operation of DEC changes the encoder. -/
def Obligations.EncoderAndDecoderAreIndependent : Prop :=
  ∀ (i : Instr) (s t : State), exec i s = .next t →
    (i.isEnc = true → t.dec = s.dec) ∧ (i.isDec = true → t.enc = s.enc)

/-- R8, R34, R7: no operation changes the capacities or the ready-buffer switch, or invokes another operation. -/
def Obligations.ParametersAreFixed : Prop :=
  ∀ (i : Instr) (s t : State), exec i s = .next t → t.params = s.params ∧ t.pending = s.pending

/-- R190, R205: what DEC returns and becomes does not depend on the encoder: two cores that agree on the decoder and
the parameters agree on both after the same operation of DEC. -/
def Obligations.DecoderCannotSeeTheEncoder : Prop :=
  ∀ (i : Instr) (s s' t : State), i.isDec = true → s.dec = s'.dec → s.params = s'.params →
    exec i s = .next t → ∃ t', exec i s' = .next t' ∧ t'.dec = t.dec ∧ t'.report = t.report

/-- R35, R190: the invariants hold after reset. -/
def Obligations.InvariantsHoldAtReset : Prop := CodecInv State.reset ∧ ReadyFrameInv State.reset

/-- R191, R192, R193, R194, R204, R125: every step keeps the invariant. -/
def Obligations.EveryStepKeepsInv : Prop :=
  ∀ s t : State, CodecInv s → step s = .next t → CodecInv t

/-- R194, R178: with the separate ready buffer, every step keeps it showing nothing or the tail of a payload that
stands in it with its matching checksum. -/
def Obligations.EveryStepKeepsReadyFrame : Prop :=
  ∀ s t : State, CodecInv s → ReadyFrameInv s → step s = .next t → ReadyFrameInv t

/-- R204, R56: no step from a state of the invariant reads a cell that has not been written or reaches outside a
buffer: the model's two faults never happen. -/
def Obligations.NoReadBeforeWrite : Prop :=
  ∀ (s : State) (f : Fault), CodecInv s → step s ≠ .fault f

/-- R14, R131, R177, R210, R52: from a state of the invariant every operation completes, but for a view outside its
window, which is refused, and an `ENC_WRITE` that is not rejected and whose `pl` has not exactly `length` bytes,
which is refused too (the spec's decisions D10 and D13; logs 8, 9). -/
def Obligations.OnlyOutsideViewsAndMisfitWritesStop : Prop :=
  ∀ (i : Instr) (s : State), CodecInv s →
    (∃ t, exec i s = .next t) ∨
    (∃ k, i = .encData k ∧ s.enc.framePos ≤ k ∧ exec i s = .refused .outsideEncoderView) ∨
    (∃ k, i = .decData k ∧ s.dec.availableLen ≤ k ∧ exec i s = .refused .outsideDecoderView) ∨
    (∃ n pl, i = .encWrite true n pl ∧ 0 < n ∧ n ≤ s.params.encP ∧ pl.length ≠ n ∧
      exec i s = .refused .hostSequenceLength)

/-- R196: from every state of the invariant, feeding the well-formed frame of any payload that fits to a decoder
that is Idle or has just seen a FLAG delivers exactly that payload, at the last byte and not before; just before it
the buffer holds the payload and its checksum; and draining returns the payload. -/
def Obligations.RoundTrip : Prop :=
  ∀ (s : State) (p : List Byte), CodecInv s →
    (s.dec.framePos = 0 ∨ s.dec.framePos = 1 ∧ s.dec.inEscape = false) → p.length + 3 ≤ s.dcap →
    ∃ u t v,
      execSeq (decFeeds (frameOf Config.ck p).dropLast) s =
        .next (u, List.replicate ((frameOf Config.ck p).length - 1) (.frameComplete false)) ∧
      u.dec.framePos = p.length + 3 ∧ u.dec.inEscape = false ∧
      u.dec.abuf.holds 1 (p ++ [loByte (Config.ck p), hiByte (Config.ck p)]) ∧
      exec (.decFeed 0x7E) u = .next t ∧ t.report.result = .frameComplete true ∧
      t.dec.framePos = 0 ∧ t.dec.inEscape = false ∧ t.dec.readPos = 1 ∧ t.dec.availableLen = p.length ∧
      t.ready.holds 1 p ∧ t.enc = s.enc ∧
      exec (.decReadn true p.length) t = .next v ∧ v.report.result = .copied p.length p

/-- R196 with R125: from every state of the invariant with the decoder Idle or one FLAG taken, a payload that fits
both, written to ENC, read out byte by byte, fed to DEC and drained comes back whole. -/
def Obligations.LoopbackDeliversThePayload : Prop :=
  ∀ (s : State) (p : List Byte), CodecInv s →
    (s.dec.framePos = 0 ∨ s.dec.framePos = 1 ∧ s.dec.inEscape = false) →
    0 < p.length → p.length ≤ s.params.encP → p.length + 3 ≤ s.dcap →
    ∃ t u v w wire rs,
      exec (.encWrite true p.length p) s = .next t ∧
      execSeq (encFrame t.enc.framePos) t = .next (u, .count wire.length :: wire.map .byte) ∧
      execSeq (decFeeds wire) u = .next (v, rs ++ [.frameComplete true]) ∧
      execSeq (decDrainAll v.dec.availableLen) v = .next (w, [.count p.length, .copied p.length p])

/-- R197: noise without a FLAG leaves an Idle decoder, and the encoder, as they were, every call returning
false. -/
def Obligations.NoiseLeavesIdleDecoderAlone : Prop :=
  ∀ (s : State) (g : List Byte), s.dec.framePos = 0 → (∀ b ∈ g, b ≠ 0x7E) →
    ∃ t, execSeq (decFeeds g) s = .next (t, List.replicate g.length (.frameComplete false)) ∧
      t.dec = s.dec ∧ t.enc = s.enc

/-- R198: a DATA byte and two FLAGs bring the decoder to `(1, false)`, from every state of the invariant. -/
def Obligations.SynchronisingWord : Prop :=
  ∀ (s : State) (x : Byte), CodecInv s → dataWf x = true →
    ∃ t rs, execSeq (decFeeds [x, 0x7E, 0x7E]) s = .next (t, rs) ∧
      t.dec.framePos = 1 ∧ t.dec.inEscape = false

/-- R199: from every state of the invariant the next FLAG leaves the decoder Idle or with the cursor at 1, and some
bytes lead to a successful validation. -/
def Obligations.DecoderAlwaysRecovers : Prop :=
  ∀ s : State, CodecInv s →
    (∃ t, exec (.decFeed 0x7E) s = .next t ∧ (t.dec.framePos = 0 ∨ t.dec.framePos = 1)) ∧
    (∃ bs t rs, execSeq (decFeeds bs) s = .next (t, rs ++ [.frameComplete true]))

/-- R163: no number of FLAGs leaves the state `(1, true)` (the spec's decision D4; log 11), and the next byte that
is stored is stored xor 0x20. -/
def Obligations.PendingEscapeSurvivesFlags : Prop :=
  ∀ (s : State) (n : Nat) (b : Byte), s.dec.framePos = 1 → s.dec.inEscape = true → b ≠ 0x7E →
    ∃ t u, execSeq (decFeeds (List.replicate n 0x7E)) s =
        .next (t, List.replicate n (.frameComplete false)) ∧ t.dec = s.dec ∧
      exec (.decFeed b) t = .next u ∧ u.dec.framePos = 2 ∧ u.dec.inEscape = false ∧
      u.dec.abuf.read 1 = some (b ^^^ 0x20)
end

