-- ==== Sys2Proof/Laws/Decode.lean ====
section
/-! SUPPORT. What the decoder's shared operand readers can answer, said once each. -/

namespace Sys2Proof

theorem noArgs_eq_ok {i j : Instr} {args : List Arg} : noArgs i args = .ok j ↔ args = [] ∧ j = i := by
  cases args <;> simp [noArgs, eq_comm]

theorem natArg_eq_ok {f : Nat → Instr} {j : Instr} {args : List Arg} :
    natArg f args = .ok j ↔ ∃ n, args = [.nat n] ∧ j = f n := by
  unfold natArg
  split <;> simp_all [eq_comm]

theorem byteArg_eq_ok {f : Byte → Instr} {j : Instr} {args : List Arg} :
    byteArg f args = .ok j ↔ ∃ b, args = [.byte b] ∧ j = f b := by
  unfold byteArg
  split <;> simp_all [eq_comm]

theorem bytesArg_eq_ok {f : List Byte → Instr} {j : Instr} {args : List Arg} :
    bytesArg f args = .ok j ↔ ∃ bs, args = [.bytes bs] ∧ j = f bs := by
  unfold bytesArg
  split <;> simp_all [eq_comm]

theorem readnArgs_eq_ok {j : Instr} {args : List Arg} :
    readnArgs args = .ok j ↔ ∃ ok n, args = [.bit ok, .nat n] ∧ j = .decReadn ok n := by
  unfold readnArgs
  split
  · simp [eq_comm]
  · simp_all

theorem writeArgs_eq_ok {j : Instr} {args : List Arg} :
    writeArgs args = .ok j ↔ ∃ ok n pl, args = [.bit ok, .nat n, .bytes pl] ∧ j = .encWrite ok n pl := by
  unfold writeArgs
  split
  · simp [eq_comm]
  · simp_all

theorem dataWf_eq {d : Byte} : dataWf d = true ↔ d ≠ Config.flag ∧ d ≠ Config.esc := by
  simp [dataWf]

/-- The three one-byte symbols. -/
theorem wireSymbol_cases (b : Byte) :
    (b = Config.flag ∧ wireSymbol b = .flag) ∨ (b = Config.esc ∧ wireSymbol b = .esc) ∨
      (dataWf b = true ∧ wireSymbol b = .data b) := by
  by_cases hf : b = Config.flag
  · simp [wireSymbol, hf]
  · by_cases he : b = Config.esc
    · exact .inr (.inl ⟨he, by simp [he, wireSymbol, Config.flag, Config.esc]⟩)
    · exact .inr (.inr ⟨dataWf_eq.2 ⟨hf, he⟩, by simp [wireSymbol, hf, he]⟩)

/-- What the wire decoder answers: a two-byte symbol after an ESC, else the symbol of the first byte. -/
theorem decodeWire_cases (first : Byte) (more : List Byte) :
    (∃ d rest, first = Config.esc ∧ more = d :: rest ∧
      decodeWire first more = (.escpair d, stillToArrive rest)) ∨
    decodeWire first more = (wireSymbol first, stillToArrive more) := by
  cases more with
  | nil => exact .inr rfl
  | cons d rest =>
    by_cases he : first = Config.esc
    · exact .inl ⟨d, rest, he, rfl, by simp [decodeWire, he]⟩
    · exact .inr (by simp [decodeWire, he, stillToArrive])

theorem decode_hostOp_eq_ok {op : BitVec 4} {args : List Arg} {i : Instr} {left : List Request} :
    decode (.hostOp op args) = .ok (i, left) ↔ decodeHostOp op args = .ok i ∧ left = [] := by
  cases h : decodeHostOp op args <;> simp [decode, h, Except.map, eq_comm]

theorem decode_ckPort_eq_ok {sel : BitVec 2} {args : List Arg} {i : Instr} {left : List Request} :
    decode (.ckPort sel args) = .ok (i, left) ↔ decodeCkPort sel args = .ok i ∧ left = [] := by
  cases h : decodeCkPort sel args <;> simp [decode, h, Except.map, eq_comm]

theorem decode_wire_eq_ok {first : Byte} {more : List Byte} {p : Instr × List Request} :
    decode (.wire first more) = .ok p ↔ decodeWire first more = p := by simp [decode]

/-- R90: a word of 8 bits is a WIRE_BYTE, whatever its value: FLAG, then ESC, then DATA. -/
theorem decode_tableRequest_eight (w : Nat) :
    decode (tableRequest 8 w) = .ok (wireSymbol (BitVec.ofNat 8 w), []) := rfl

/-- R90: a table word of 8 bits is one whole wire symbol, so the decoder always reads an instruction from it. -/
theorem decodeTableWord_eight (w : Nat) : decodeTableWord 8 w = some (wireSymbol (BitVec.ofNat 8 w)) := rfl

/-- R90: a word of 16 bits that matches the WIRE_PAIR row, which is any with the upper byte 0x7D. -/
theorem decode_tableRequest_sixteen (d : Byte) :
    decode (tableRequest 16 (0x7D00 + d.toNat)) = .ok (.escpair d, []) := by
  revert d; decide

end Sys2Proof
end

