-- ==== Sys2Proof/Laws/Memory.lean ====
section
/-! SUPPORT. The laws of the buffers: read after write, the canonical form, and what each shared read and store
can do. -/

namespace Sys2Proof.Machine

/-! ## Read after write -/

theorem Memory.read_write (m : Memory) (i j : Nat) (v : Byte) :
    (m.write i v).read j = if j = i then some v else m.read j := by
  induction m with
  | nil => simp [Memory.write, Memory.read]
  | cons c m ih =>
    obtain ⟨a, w⟩ := c
    by_cases h₁ : i < a
    · simp [Memory.write, h₁, Memory.read]
    · by_cases h₂ : i = a
      · subst h₂
        simp only [Memory.write, h₁, Memory.read, if_true, if_false]
        split <;> rfl
      · simp only [Memory.write, h₁, h₂, Memory.read, if_false, ih]
        split
        · next h => subst h; simp [Ne.symm h₂]
        · rfl

@[simp] theorem Memory.read_write_self (m : Memory) (i : Nat) (v : Byte) :
    (m.write i v).read i = some v := by simp [Memory.read_write]

theorem Memory.read_write_other (m : Memory) {i j : Nat} (v : Byte) (h : j ≠ i) :
    (m.write i v).read j = m.read j := by simp [Memory.read_write, h]

@[simp] theorem Memory.read_nil (i : Nat) : Memory.read [] i = none := rfl

/-! ## The canonical form -/

/-- No entry equals what an unlisted cell reads as, whatever the list. -/
theorem Memory.all_listed (m : Memory) : (m.all fun c => some c.2 != Memory.unlisted) = true := by
  induction m with
  | nil => rfl
  | cons c m ih => simp [Memory.unlisted]

theorem Memory.wf_eq (m : Memory) : m.wf = Memory.risingFrom 0 m := by
  rw [Memory.wf, Memory.all_listed, Bool.and_true]

theorem Memory.risingFrom_mono {m : Memory} {lo lo' : Nat} (h : lo' ≤ lo)
    (hm : Memory.risingFrom lo m = true) : Memory.risingFrom lo' m = true := by
  cases m with
  | nil => rfl
  | cons c m =>
    simp only [Memory.risingFrom, Bool.and_eq_true, decide_eq_true_eq] at hm ⊢
    exact ⟨by omega, hm.2⟩

theorem Memory.risingFrom_write {m : Memory} {lo i : Nat} (v : Byte) (hi : lo ≤ i)
    (hm : Memory.risingFrom lo m = true) : Memory.risingFrom lo (m.write i v) = true := by
  induction m generalizing lo with
  | nil => simp [Memory.write, Memory.risingFrom, hi]
  | cons c m ih =>
    obtain ⟨a, w⟩ := c
    simp only [Memory.risingFrom, Bool.and_eq_true, decide_eq_true_eq] at hm
    by_cases h₁ : i < a
    · simp [Memory.write, h₁, Memory.risingFrom, hi, hm.2]
    · by_cases h₂ : i = a
      · subst h₂; simp [Memory.write, Memory.risingFrom, hm.1, hm.2]
      · simp only [Memory.write, h₁, h₂, if_false, Memory.risingFrom, Bool.and_eq_true, decide_eq_true_eq]
        exact ⟨hm.1, ih (by omega) hm.2⟩

/-- A write keeps the canonical form. -/
theorem Memory.wf_write {m : Memory} (i : Nat) (v : Byte) (hm : m.wf = true) : (m.write i v).wf = true := by
  rw [Memory.wf_eq] at *
  exact Memory.risingFrom_write v (Nat.zero_le i) hm

theorem Memory.all_write {m : Memory} {i : Nat} {v : Byte} {p : Nat → Bool}
    (hm : (m.all fun c => p c.1) = true) (hi : p i = true) :
    ((m.write i v).all fun c => p c.1) = true := by
  induction m with
  | nil => simp [Memory.write, hi]
  | cons c m ih =>
    obtain ⟨a, w⟩ := c
    simp only [List.all_cons, Bool.and_eq_true] at hm
    by_cases h₁ : i < a
    · simp only [Memory.write, h₁, if_true, List.all_cons, Bool.and_eq_true]
      exact ⟨hi, hm⟩
    · by_cases h₂ : i = a
      · subst h₂
        simp only [Memory.write, h₁, if_false, if_true, List.all_cons, Bool.and_eq_true]
        exact ⟨hi, hm.2⟩
      · simp only [Memory.write, h₁, h₂, if_false, List.all_cons, Bool.and_eq_true]
        exact ⟨hm.1, ih hm.2⟩

/-- A store in range keeps the canonical form and every cell in range. -/
theorem Memory.fits_write {m : Memory} {cap i : Nat} (v : Byte) (hm : m.fits cap = true) (hi : i < cap) :
    (m.write i v).fits cap = true := by
  simp only [Memory.fits, Bool.and_eq_true] at *
  exact ⟨Memory.wf_write i v hm.1,
    Memory.all_write (p := fun a => decide (a < cap)) hm.2 (by simpa using hi)⟩

@[simp] theorem Memory.fits_nil (cap : Nat) : Memory.fits [] cap = true := rfl

/-! ## What a buffer holds -/

theorem Memory.holds_append {m : Memory} {i : Nat} {as bs : List Byte} :
    m.holds i (as ++ bs) ↔ m.holds i as ∧ m.holds (i + as.length) bs := by
  constructor
  · intro h
    refine ⟨fun k hk => ?_, fun k hk => ?_⟩
    · have := h k (by simp; omega)
      rwa [List.getElem?_append_left hk] at this
    · have := h (as.length + k) (by simp; omega)
      rw [List.getElem?_append_right (by omega)] at this
      simpa [Nat.add_assoc] using this
  · rintro ⟨ha, hb⟩ k hk
    by_cases h : k < as.length
    · rw [List.getElem?_append_left h]; exact ha k h
    · rw [List.getElem?_append_right (by omega)]
      have := hb (k - as.length) (by simp at hk; omega)
      rwa [show i + as.length + (k - as.length) = i + k by omega] at this

theorem Memory.holds_nil (m : Memory) (i : Nat) : m.holds i [] := by
  intro k hk; simp at hk

theorem Memory.holds_cons {m : Memory} {i : Nat} {b : Byte} {bs : List Byte} :
    m.holds i (b :: bs) ↔ m.read i = some b ∧ m.holds (i + 1) bs := by
  rw [← List.singleton_append, Memory.holds_append]
  refine and_congr_left fun _ => ⟨fun h => by simpa using h 0 (by simp), fun h k hk => ?_⟩
  obtain rfl : k = 0 := by simpa using hk
  simpa using h

theorem Memory.holds_write {m : Memory} {i j : Nat} {bs : List Byte} (v : Byte) (h : m.holds i bs)
    (hj : i + bs.length ≤ j) : (m.write j v).holds i bs := by
  intro k hk
  rw [Memory.read_write_other _ _ (by omega)]
  exact h k hk

/-- Storing the next byte behind what the buffer holds. -/
theorem Memory.holds_write_snoc {m : Memory} {i : Nat} {bs : List Byte} (v : Byte) (h : m.holds i bs) :
    (m.write (i + bs.length) v).holds i (bs ++ [v]) := by
  rw [Memory.holds_append]
  refine ⟨Memory.holds_write v h (Nat.le_refl _), ?_⟩
  rw [Memory.holds_cons]
  exact ⟨by simp, Memory.holds_nil _ _⟩

theorem Memory.written_of_holds {m : Memory} {i : Nat} {bs : List Byte} (h : m.holds i bs) :
    m.written i bs.length := by
  intro k hk; rw [h k hk]; simp [hk]

theorem Memory.holds_of_written {m : Memory} {i n : Nat} (h : m.written i n) :
    ∃ bs : List Byte, bs.length = n ∧ m.holds i bs := by
  induction n with
  | zero => exact ⟨[], rfl, Memory.holds_nil _ _⟩
  | succ n ih =>
    obtain ⟨bs, hl, hb⟩ := ih fun k hk => h k (by omega)
    obtain ⟨v, hv⟩ := Option.isSome_iff_exists.1 (h n (by omega))
    refine ⟨bs ++ [v], by simp [hl], Memory.holds_append.2 ⟨hb, ?_⟩⟩
    rw [Memory.holds_cons]
    exact ⟨by rw [hl]; exact hv, Memory.holds_nil _ _⟩

theorem Memory.written_write {m : Memory} {i n : Nat} (j : Nat) (v : Byte) (h : m.written i n) :
    (m.write j v).written i n := by
  intro k hk
  rw [Memory.read_write]
  split
  · rfl
  · exact h k hk

theorem Memory.written_write_snoc {m : Memory} {i n : Nat} (v : Byte) (h : m.written i n) :
    (m.write (i + n) v).written i (n + 1) := by
  intro k hk
  rw [Memory.read_write]
  split
  · rfl
  · exact h k (by omega)

theorem Memory.written_sub {m : Memory} {i n j k : Nat} (h : m.written i n) (hj : i ≤ j)
    (hk : j + k ≤ i + n) : m.written j k := by
  intro l hl
  have := h (j - i + l) (by omega)
  rwa [show i + (j - i + l) = j + l by omega] at this

theorem Memory.holds_unique {m : Memory} {i : Nat} {as bs : List Byte} (ha : m.holds i as)
    (hb : m.holds i bs) (hl : as.length = bs.length) : as = bs := by
  apply List.ext_getElem? fun k => ?_
  by_cases hk : k < as.length
  · rw [← ha k hk, hb k (by omega)]
  · rw [List.getElem?_eq_none (by omega), List.getElem?_eq_none (by omega)]

/-! ## Sequencing -/

@[simp] theorem andThen_next {α β : Type} (a : α) (k : α → Host.Outcome β Fault Refusal) :
    andThen (.next a) k = k a := rfl
@[simp] theorem andThen_fault {α β : Type} (f : Fault) (k : α → Host.Outcome β Fault Refusal) :
    andThen (.fault f) k = .fault f := rfl
@[simp] theorem andThen_refused {α β : Type} (r : Refusal) (k : α → Host.Outcome β Fault Refusal) :
    andThen (.refused r) k = .refused r := rfl

/-- A sequence answers next only through both of its parts. -/
theorem andThen_eq_next {α β : Type} {o : Host.Outcome α Fault Refusal}
    {k : α → Host.Outcome β Fault Refusal} {b : β} :
    andThen o k = .next b ↔ ∃ a, o = .next a ∧ k a = .next b := by
  cases o <;> simp

theorem andThen_assoc {α β γ : Type} (o : Host.Outcome α Fault Refusal)
    (k : α → Host.Outcome β Fault Refusal) (k' : β → Host.Outcome γ Fault Refusal) :
    andThen (andThen o k) k' = andThen o fun a => andThen (k a) k' := by
  cases o <;> rfl

/-! ## The shared reads and stores -/

theorem loadCell_eq_next {buf : Buffer} {cap : Nat} {m : Memory} {i : Nat} {v : Byte} :
    loadCell buf cap m i = .next v ↔ i < cap ∧ m.read i = some v := by
  unfold loadCell
  split
  · split <;> simp_all
  · simp_all

theorem storeCell_eq_next {buf : Buffer} {cap : Nat} {m m' : Memory} {i : Nat} {v : Byte} :
    storeCell buf cap m i v = .next m' ↔ i < cap ∧ m' = m.write i v := by
  unfold storeCell
  split
  · simp_all [eq_comm]
  · simp_all

/-- `loadRange` reads `n` cells exactly when the buffer has and holds them. -/
theorem loadRange_eq_next {buf : Buffer} {cap : Nat} {m : Memory} {i n : Nat} {bs : List Byte} :
    loadRange buf cap m i n = .next bs ↔
      bs.length = n ∧ m.holds i bs ∧ (n = 0 ∨ i + n ≤ cap) := by
  induction n generalizing i bs with
  | zero =>
    simp only [loadRange, Host.Outcome.next.injEq, List.length_eq_zero_iff, true_or, and_true]
    constructor
    · rintro rfl; exact ⟨rfl, Memory.holds_nil _ _⟩
    · rintro ⟨rfl, -⟩; rfl
  | succ n ih =>
    simp only [loadRange, andThen_eq_next, loadCell_eq_next]
    constructor
    · rintro ⟨v, ⟨hi, hv⟩, vs, hvs, h⟩
      obtain ⟨hl, hh, hc⟩ := ih.1 hvs
      cases h
      exact ⟨by simp [hl], Memory.holds_cons.2 ⟨hv, hh⟩, by omega⟩
    · rintro ⟨hl, hh, hc⟩
      cases bs with
      | nil => simp at hl
      | cons v vs =>
        rw [Memory.holds_cons] at hh
        refine ⟨v, ⟨by omega, hh.1⟩, vs, ih.2 ⟨by simpa using hl, hh.2, by omega⟩, rfl⟩

/-- The success copy: everything `copyCells` can do when it answers. -/
theorem copyCells_eq_next {cap n : Nat} {src dst dst' : Memory} (h : copyCells cap src n dst = .next dst') :
    (n = 0 ∨ n ≤ cap) ∧ src.written 0 n ∧ (∀ a, a < n → dst'.read a = src.read a) ∧
      (∀ a, n ≤ a → dst'.read a = dst.read a) ∧ (dst.fits cap = true → dst'.fits cap = true) := by
  induction n generalizing dst' with
  | zero =>
    cases h
    exact ⟨.inl rfl, by intro k hk; omega, by intro a ha; omega, fun _ _ => rfl, id⟩
  | succ n ih =>
    simp only [copyCells, andThen_eq_next, loadCell_eq_next, storeCell_eq_next] at h
    obtain ⟨d, hd, v, ⟨hn, hv⟩, -, rfl⟩ := h
    obtain ⟨-, hw, hlt, hge, hf⟩ := ih hd
    refine ⟨by omega, fun k hk => ?_, fun a ha => ?_, fun a ha => ?_, fun hfit => ?_⟩
    · by_cases hkn : k = n
      · subst hkn; simp [hv]
      · exact hw k (by omega)
    · rw [Memory.read_write]
      split
      · next h => rw [h, hv]
      · exact hlt a (by omega)
    · rw [Memory.read_write_other _ _ (by omega)]
      exact hge a (by omega)
    · exact Memory.fits_write v (hf hfit) hn

/-- The success copy answers whenever the copied cells exist and have been written. -/
theorem copyCells_completes {cap n : Nat} {src : Memory} (dst : Memory) (hn : n ≤ cap)
    (hw : src.written 0 n) : ∃ dst', copyCells cap src n dst = .next dst' := by
  induction n with
  | zero => exact ⟨dst, rfl⟩
  | succ n ih =>
    obtain ⟨d, hd⟩ := ih (by omega) fun k hk => hw k (by omega)
    obtain ⟨v, hv⟩ := Option.isSome_iff_exists.1 (hw n (by omega))
    refine ⟨d.write n v, ?_⟩
    simp only [copyCells, andThen_eq_next, loadCell_eq_next, storeCell_eq_next]
    exact ⟨d, hd, v, ⟨by omega, by simpa using hv⟩, by omega, rfl⟩

end Sys2Proof.Machine
end

