-- ==== Sys2Proof/Laws/State.lean ====
section
/-! SUPPORT. One lemma per field per named update of the state, each true by `rfl`. -/

namespace Sys2Proof.Machine

namespace State

@[simp] theorem fresh_params (s : State) : s.fresh.params = s.params := rfl
@[simp] theorem fresh_enc (s : State) : s.fresh.enc = s.enc := rfl
@[simp] theorem fresh_dec (s : State) : s.fresh.dec = s.dec := rfl
@[simp] theorem fresh_pending (s : State) : s.fresh.pending = s.pending := rfl
@[simp] theorem fresh_report (s : State) : s.fresh.report = { result := .unit, conds := [], bus := [] } := rfl

@[simp] theorem answer_params (s : State) (r : Result) : (s.answer r).params = s.params := rfl
@[simp] theorem answer_enc (s : State) (r : Result) : (s.answer r).enc = s.enc := rfl
@[simp] theorem answer_dec (s : State) (r : Result) : (s.answer r).dec = s.dec := rfl
@[simp] theorem answer_pending (s : State) (r : Result) : (s.answer r).pending = s.pending := rfl
@[simp] theorem answer_result (s : State) (r : Result) : (s.answer r).report.result = r := rfl
@[simp] theorem answer_conds (s : State) (r : Result) : (s.answer r).report.conds = s.report.conds := rfl
@[simp] theorem answer_bus (s : State) (r : Result) : (s.answer r).report.bus = s.report.bus := rfl

@[simp] theorem note_params (s : State) (c : Condition) : (s.note c).params = s.params := rfl
@[simp] theorem note_enc (s : State) (c : Condition) : (s.note c).enc = s.enc := rfl
@[simp] theorem note_dec (s : State) (c : Condition) : (s.note c).dec = s.dec := rfl
@[simp] theorem note_pending (s : State) (c : Condition) : (s.note c).pending = s.pending := rfl
@[simp] theorem note_result (s : State) (c : Condition) : (s.note c).report.result = s.report.result := rfl
@[simp] theorem note_conds (s : State) (c : Condition) : (s.note c).report.conds = s.report.conds ++ [c] := rfl
@[simp] theorem note_bus (s : State) (c : Condition) : (s.note c).report.bus = s.report.bus := rfl

@[simp] theorem access_params (s : State) (a : Access) : (s.access a).params = s.params := rfl
@[simp] theorem access_enc (s : State) (a : Access) : (s.access a).enc = s.enc := rfl
@[simp] theorem access_dec (s : State) (a : Access) : (s.access a).dec = s.dec := rfl
@[simp] theorem access_pending (s : State) (a : Access) : (s.access a).pending = s.pending := rfl
@[simp] theorem access_result (s : State) (a : Access) : (s.access a).report.result = s.report.result := rfl
@[simp] theorem access_conds (s : State) (a : Access) : (s.access a).report.conds = s.report.conds := rfl
@[simp] theorem access_bus (s : State) (a : Access) : (s.access a).report.bus = s.report.bus ++ [a] := rfl

@[simp] theorem resetFrame_params (s : State) : s.resetFrame.params = s.params := rfl
@[simp] theorem resetFrame_enc (s : State) : s.resetFrame.enc = s.enc := rfl
@[simp] theorem resetFrame_pending (s : State) : s.resetFrame.pending = s.pending := rfl
@[simp] theorem resetFrame_report (s : State) : s.resetFrame.report = s.report := rfl
@[simp] theorem resetFrame_dec (s : State) :
    s.resetFrame.dec = { s.dec with framePos := 0, inEscape := false } := rfl

@[simp] theorem setEscape_params (s : State) (b : Bool) : (s.setEscape b).params = s.params := rfl
@[simp] theorem setEscape_enc (s : State) (b : Bool) : (s.setEscape b).enc = s.enc := rfl
@[simp] theorem setEscape_pending (s : State) (b : Bool) : (s.setEscape b).pending = s.pending := rfl
@[simp] theorem setEscape_report (s : State) (b : Bool) : (s.setEscape b).report = s.report := rfl
@[simp] theorem setEscape_dec (s : State) (b : Bool) : (s.setEscape b).dec = { s.dec with inEscape := b } := rfl

@[simp] theorem consume_params (s : State) (n : Nat) : (s.consume n).params = s.params := rfl
@[simp] theorem consume_enc (s : State) (n : Nat) : (s.consume n).enc = s.enc := rfl
@[simp] theorem consume_pending (s : State) (n : Nat) : (s.consume n).pending = s.pending := rfl
@[simp] theorem consume_report (s : State) (n : Nat) : (s.consume n).report = s.report := rfl
@[simp] theorem consume_dec (s : State) (n : Nat) : (s.consume n).dec =
    { s.dec with readPos := s.dec.readPos + n, availableLen := s.dec.availableLen - n } := rfl

/-- The capacities and the ready buffer depend on the parameters and the decoder alone. -/
theorem ecap_congr {s t : State} (h : t.params = s.params) : t.ecap = s.ecap := by simp [ecap, h]
theorem dcap_congr {s t : State} (h : t.params = s.params) : t.dcap = s.dcap := by simp [dcap, h]
theorem ready_congr {s t : State} (h : t.params = s.params) (h' : t.dec = s.dec) : t.ready = s.ready := by
  simp [ready, h, h']
theorem dcap_ge (s : State) : 6 ≤ s.dcap := by simp [dcap]

@[simp] theorem ecap_fresh (s : State) : s.fresh.ecap = s.ecap := rfl
@[simp] theorem dcap_fresh (s : State) : s.fresh.dcap = s.dcap := rfl
@[simp] theorem ready_fresh (s : State) : s.fresh.ready = s.ready := rfl
@[simp] theorem readyBuffer_fresh (s : State) : s.fresh.readyBuffer = s.readyBuffer := rfl
@[simp] theorem bufferFull_fresh (s : State) : s.fresh.bufferFull = s.bufferFull := rfl
@[simp] theorem ecap_note (s : State) (c : Condition) : (s.note c).ecap = s.ecap := rfl
@[simp] theorem dcap_note (s : State) (c : Condition) : (s.note c).dcap = s.dcap := rfl
@[simp] theorem ready_note (s : State) (c : Condition) : (s.note c).ready = s.ready := rfl
@[simp] theorem readyBuffer_note (s : State) (c : Condition) : (s.note c).readyBuffer = s.readyBuffer := rfl
@[simp] theorem ecap_access (s : State) (a : Access) : (s.access a).ecap = s.ecap := rfl
@[simp] theorem dcap_access (s : State) (a : Access) : (s.access a).dcap = s.dcap := rfl
@[simp] theorem ready_access (s : State) (a : Access) : (s.access a).ready = s.ready := rfl

end State

@[simp] theorem decFail_params (c : Condition) (s : State) : (decFail c s).params = s.params := rfl
@[simp] theorem decFail_enc (c : Condition) (s : State) : (decFail c s).enc = s.enc := rfl
@[simp] theorem decFail_pending (c : Condition) (s : State) : (decFail c s).pending = s.pending := rfl
@[simp] theorem decFail_dec (c : Condition) (s : State) :
    (decFail c s).dec = { s.dec with framePos := 0, inEscape := false } := rfl
@[simp] theorem decFail_result (c : Condition) (s : State) :
    (decFail c s).report.result = s.report.result := rfl
@[simp] theorem decFail_conds (c : Condition) (s : State) :
    (decFail c s).report.conds = s.report.conds ++ [c] := rfl
@[simp] theorem decFail_bus (c : Condition) (s : State) : (decFail c s).report.bus = s.report.bus := rfl

@[simp] theorem ckResetCall_params (s : State) : (ckResetCall s).params = s.params := rfl
@[simp] theorem ckResetCall_dec (s : State) : (ckResetCall s).dec = s.dec := rfl
@[simp] theorem ckResetCall_pending (s : State) : (ckResetCall s).pending = s.pending := rfl
@[simp] theorem ckResetCall_enc (s : State) : (ckResetCall s).enc = { s.enc with ckAcc := [] } := rfl
@[simp] theorem ckResetCall_report (s : State) : (ckResetCall s).report =
    { s.report with bus := s.report.bus ++ [.ckReset] } := rfl

@[simp] theorem ckUpdateCall_params (ck : Checksum) (b : Byte) (s : State) :
    (ckUpdateCall ck b s).params = s.params := rfl
@[simp] theorem ckUpdateCall_dec (ck : Checksum) (b : Byte) (s : State) :
    (ckUpdateCall ck b s).dec = s.dec := rfl
@[simp] theorem ckUpdateCall_pending (ck : Checksum) (b : Byte) (s : State) :
    (ckUpdateCall ck b s).pending = s.pending := rfl
@[simp] theorem ckUpdateCall_enc (ck : Checksum) (b : Byte) (s : State) :
    (ckUpdateCall ck b s).enc = { s.enc with ckAcc := s.enc.ckAcc ++ [b] } := rfl
@[simp] theorem ckUpdateCall_report (ck : Checksum) (b : Byte) (s : State) :
    (ckUpdateCall ck b s).report =
      { s.report with bus := s.report.bus ++ [.ckUpdate b (ck (s.enc.ckAcc ++ [b]))] } := rfl

@[simp] theorem ckComputeCall_params (ck : Checksum) (p : List Byte) (s : State) :
    (ckComputeCall ck p s).params = s.params := rfl
@[simp] theorem ckComputeCall_enc (ck : Checksum) (p : List Byte) (s : State) :
    (ckComputeCall ck p s).enc = s.enc := rfl
@[simp] theorem ckComputeCall_dec (ck : Checksum) (p : List Byte) (s : State) :
    (ckComputeCall ck p s).dec = s.dec := rfl
@[simp] theorem ckComputeCall_pending (ck : Checksum) (p : List Byte) (s : State) :
    (ckComputeCall ck p s).pending = s.pending := rfl
@[simp] theorem ckComputeCall_report (ck : Checksum) (p : List Byte) (s : State) :
    (ckComputeCall ck p s).report =
      { s.report with bus := s.report.bus ++ [.ckCompute p (ck p)] } := rfl

end Sys2Proof.Machine
end

