-- ==== Sys2Proof/Laws/Decoder.lean ====
section
/-! SUPPORT. What the decoder's shared operations can do, said once: one case per row of the transition table
(spec/43_decoder_feed.md R145) with everything the row changes, and when each operation answers. -/

namespace Sys2Proof.Machine

/-! ## The storing operation -/

/-- The state after `abuf[dec.frame_pos] <- v` with the cursor moved on. -/
def stored (v : Byte) (s : State) : State :=
  { s with dec := { s.dec with abuf := s.dec.abuf.write s.dec.framePos v, framePos := s.dec.framePos + 1 } }

@[simp] theorem stored_params (v : Byte) (s : State) : (stored v s).params = s.params := rfl
@[simp] theorem stored_enc (v : Byte) (s : State) : (stored v s).enc = s.enc := rfl
@[simp] theorem stored_pending (v : Byte) (s : State) : (stored v s).pending = s.pending := rfl
@[simp] theorem stored_report (v : Byte) (s : State) : (stored v s).report = s.report := rfl
@[simp] theorem stored_dec (v : Byte) (s : State) : (stored v s).dec =
    { s.dec with abuf := s.dec.abuf.write s.dec.framePos v, framePos := s.dec.framePos + 1 } := rfl

theorem accumulate_eq_next {v : Byte} {s t : State} :
    accumulate v s = .next t ↔ s.dec.framePos < s.dcap ∧ t = stored v s := by
  simp only [accumulate, andThen_eq_next, storeCell_eq_next]
  constructor
  · rintro ⟨m, ⟨h, rfl⟩, h'⟩; cases h'; exact ⟨h, rfl⟩
  · rintro ⟨h, rfl⟩; exact ⟨_, ⟨h, rfl⟩, rfl⟩

/-! ## Validation -/

/-- The state after an accepted frame of `f` stored bytes, with `m` the published buffer (R156). -/
def accepted (f : Nat) (m : Memory) (s : State) : State :=
  { s with dec := { s.dec with
      framePos := 0, inEscape := false, readPos := 1, availableLen := f - 3, rbuf := m } }

@[simp] theorem accepted_params (f : Nat) (m : Memory) (s : State) : (accepted f m s).params = s.params := rfl
@[simp] theorem accepted_enc (f : Nat) (m : Memory) (s : State) : (accepted f m s).enc = s.enc := rfl
@[simp] theorem accepted_pending (f : Nat) (m : Memory) (s : State) :
    (accepted f m s).pending = s.pending := rfl
@[simp] theorem accepted_report (f : Nat) (m : Memory) (s : State) : (accepted f m s).report = s.report := rfl
@[simp] theorem accepted_dec (f : Nat) (m : Memory) (s : State) : (accepted f m s).dec =
    { s.dec with framePos := 0, inEscape := false, readPos := 1, availableLen := f - 3, rbuf := m } := rfl

theorem payloadLen_eq (f : Nat) : payloadLen f = f - 3 := by
  simp only [payloadLen, Config.headerLen, Config.footerLen]; omega

/-- What the published buffer is: the frame in its first `f` cells, everything above as before; with
`SHARED_RBUF` nothing is copied (R156, D6). -/
theorem publishedBuffer_eq_next {f : Nat} {m : Memory} {s : State} (h : publishedBuffer f s = .next m) :
    (s.params.sharedRbuf = true → m = s.dec.rbuf) ∧
    (s.params.sharedRbuf = false → ∀ a, a < f → m.read a = s.dec.abuf.read a) ∧
    (∀ a, f ≤ a → m.read a = s.dec.rbuf.read a) ∧
    (s.dec.rbuf.fits s.dcap = true → m.fits s.dcap = true) := by
  unfold publishedBuffer at h
  split at h
  · cases h; simp_all
  · obtain ⟨-, -, h₁, h₂, h₃⟩ := copyCells_eq_next h
    refine ⟨fun hs => absurd hs ‹_›, fun _ => h₁, h₂, h₃⟩

theorem publishedBuffer_completes {f : Nat} {s : State} (hf : f ≤ s.dcap) (hw : s.dec.abuf.written 0 f) :
    ∃ m, publishedBuffer f s = .next m := by
  unfold publishedBuffer
  split
  · exact ⟨_, rfl⟩
  · exact copyCells_completes _ hf hw

/-- The bytes a closing FLAG validates: payload `p`, checksum low `l` and high `h` in cells `1 .. f-1`. -/
def Closing (f : Nat) (s : State) (p : List Byte) (l h : Byte) : Prop :=
  p.length + 3 = f ∧ s.dec.abuf.holds 1 (p ++ [l, h])

/-- Everything `VALIDATE(f)` can do when it answers (R155 to R157). -/
theorem validate_eq_next {ck : Checksum} {f : Nat} {s t : State} {r : Bool} (hf : 3 ≤ f)
    (hv : validate ck f s = .next (t, r)) :
    ∃ p l h, Closing f s p l h ∧ f ≤ s.dcap ∧
      ((ck p = assemble h l ∧ r = true ∧
          ∃ m, publishedBuffer f s = .next m ∧ t = accepted f m (ckComputeCall ck p s)) ∨
        (ck p ≠ assemble h l ∧ r = false ∧ t = decFail .decBadsum (ckComputeCall ck p s))) := by
  simp only [validate, andThen_eq_next, loadRange_eq_next, loadCell_eq_next, payloadLen_eq,
    Config.headerLen] at hv
  obtain ⟨p, ⟨hl, hp, -⟩, h, ⟨hi₁, hh⟩, l, ⟨hi₂, hlo⟩, hv⟩ := hv
  have hc : Closing f s p l h := by
    refine ⟨by omega, Memory.holds_append.2 ⟨hp, Memory.holds_cons.2 ⟨?_, Memory.holds_cons.2 ⟨?_, ?_⟩⟩⟩⟩
    · rw [hl, show 1 + (f - 3) = f - 2 by omega]; exact hlo
    · rw [hl, show 1 + (f - 3) + 1 = f - 1 by omega]; exact hh
    · exact Memory.holds_nil _ _
  refine ⟨p, l, h, hc, by omega, ?_⟩
  split at hv
  · obtain ⟨m, hm, hv⟩ := andThen_eq_next.1 hv
    cases hv
    refine .inl ⟨‹_›, rfl, m, hm, ?_⟩
    simp [accepted, State.resetFrame, payloadLen_eq, Config.headerLen]
  · cases hv
    exact .inr ⟨‹_›, rfl, rfl⟩

theorem validate_completes {ck : Checksum} {f : Nat} {s : State} (hf : 3 ≤ f) (hd : f ≤ s.dcap)
    (hw : s.dec.abuf.written 0 f) : ∃ t r, validate ck f s = .next (t, r) := by
  obtain ⟨p, hl, hp⟩ := Memory.holds_of_written (Memory.written_sub (j := 1) (k := f - 3) hw (by omega) (by omega))
  obtain ⟨h, hh⟩ := Option.isSome_iff_exists.1 (hw (f - 1) (by omega))
  obtain ⟨l, hlo⟩ := Option.isSome_iff_exists.1 (hw (f - 2) (by omega))
  rw [Nat.zero_add] at hh hlo
  have h₁ : loadRange .abuf s.dcap s.dec.abuf Config.headerLen (payloadLen f) = .next p :=
    loadRange_eq_next.2 ⟨by rw [payloadLen_eq, hl], hp, by rw [payloadLen_eq, Config.headerLen]; omega⟩
  have h₂ : loadCell .abuf s.dcap s.dec.abuf (f - 1) = .next h := loadCell_eq_next.2 ⟨by omega, hh⟩
  have h₃ : loadCell .abuf s.dcap s.dec.abuf (f - 2) = .next l := loadCell_eq_next.2 ⟨by omega, hlo⟩
  simp only [validate, h₁, h₂, h₃, andThen_next]
  split
  · obtain ⟨m, hm⟩ := publishedBuffer_completes (s := ckComputeCall ck p s) hd hw
    exact ⟨_, _, by rw [acceptFrame, hm, andThen_next]⟩
  · exact ⟨_, _, rfl⟩

/-! ## DEC_FEED -/

/-- The rows of the transition table (R145) as cases: the condition and the whole effect of each. -/
inductive FeedCase (ck : Checksum) (b : Byte) (s : State) : State → Bool → Prop where
  /-- T1 -/
  | opens : s.dec.framePos = 0 → detFlag b = true → FeedCase ck b s (stored b s) false
  /-- T2 -/
  | ignoresNoise : s.dec.framePos = 0 → detFlag b = false → FeedCase ck b s s false
  /-- T3 -/
  | ignoresFlag : s.dec.framePos = 1 → detFlag b = true → FeedCase ck b s s false
  /-- T4, match -/
  | accepts (p : List Byte) (l h : Byte) (m : Memory) : 3 ≤ s.dec.framePos → s.dec.framePos ≤ s.dcap →
      detFlag b = true → Closing s.dec.framePos s p l h → ck p = assemble h l →
      publishedBuffer s.dec.framePos s = .next m →
      FeedCase ck b s (accepted s.dec.framePos m (ckComputeCall ck p s)) true
  /-- T4, mismatch -/
  | rejects (p : List Byte) (l h : Byte) : 3 ≤ s.dec.framePos → s.dec.framePos ≤ s.dcap →
      detFlag b = true → Closing s.dec.framePos s p l h → ck p ≠ assemble h l →
      FeedCase ck b s (decFail .decBadsum (ckComputeCall ck p s)) false
  /-- T5 -/
  | tooShort : s.dec.framePos = 2 → detFlag b = true → FeedCase ck b s (decFail .decShort s) false
  /-- T6 -/
  | escapes : 0 < s.dec.framePos → detFlag b = false → detEsc b = true → s.dec.inEscape = false →
      FeedCase ck b s (s.setEscape true) false
  /-- T8 -/
  | overflows : 0 < s.dec.framePos → s.dcap ≤ s.dec.framePos → detFlag b = false →
      (detEsc b && !s.dec.inEscape) = false → FeedCase ck b s (decFail .decOverflow s) false
  /-- T7 -/
  | unescapes : 0 < s.dec.framePos → s.dec.framePos < s.dcap → detFlag b = false → s.dec.inEscape = true →
      FeedCase ck b s ((stored (xform b) s).setEscape false) false
  /-- T9 -/
  | stores : 0 < s.dec.framePos → s.dec.framePos < s.dcap → detFlag b = false → detEsc b = false →
      s.dec.inEscape = false → FeedCase ck b s (stored b s) false

/-- Everything `DEC_FEED` can do when it answers. -/
theorem feed_cases {ck : Checksum} {b : Byte} {s t : State} {r : Bool} (h : feed ck b s = .next (t, r)) :
    FeedCase ck b s t r := by
  unfold feed at h
  split at h
  · next h₀ =>
    split at h
    · next hb =>
      obtain ⟨u, hu, h⟩ := andThen_eq_next.1 h
      cases h
      obtain ⟨-, rfl⟩ := accumulate_eq_next.1 hu
      exact .opens h₀ hb
    · next hb => cases h; exact .ignoresNoise h₀ (by simpa using hb)
  · next h₀ =>
    split at h
    · next hb =>
      split at h
      · next h₁ => cases h; exact .ignoresFlag h₁ hb
      · next h₁ =>
        split at h
        · next h₃ =>
          replace h₃ : 3 ≤ s.dec.framePos := h₃
          obtain ⟨p, l, hi, hc, hd, ⟨he, rfl, m, hm, rfl⟩ | ⟨hne, rfl, rfl⟩⟩ := validate_eq_next h₃ h
          · exact .accepts p l hi m h₃ hd hb hc he hm
          · exact .rejects p l hi h₃ hd hb hc hne
        · next h₃ =>
          cases h
          exact .tooShort (by simp only [minFramePos, Config.headerLen, Config.footerLen] at h₃; omega) hb
    · next hb =>
      replace hb : detFlag b = false := by simpa using hb
      split at h
      · next he =>
        cases h
        simp only [Bool.and_eq_true, Bool.not_eq_true'] at he
        exact .escapes (by omega) hb he.1 he.2
      · next he =>
        split at h
        · next hf =>
          cases h
          exact .overflows (by omega) (by simpa [State.bufferFull] using hf) hb (by simpa using he)
        · next hf =>
          replace hf : s.dec.framePos < s.dcap := by simpa [State.bufferFull] using hf
          split at h
          · next hin =>
            obtain ⟨u, hu, h⟩ := andThen_eq_next.1 h
            cases h
            obtain ⟨-, rfl⟩ := accumulate_eq_next.1 hu
            exact .unescapes (by omega) hf hb hin
          · next hin =>
            obtain ⟨u, hu, h⟩ := andThen_eq_next.1 h
            cases h
            obtain ⟨-, rfl⟩ := accumulate_eq_next.1 hu
            replace hin : s.dec.inEscape = false := by simpa using hin
            exact .stores (by omega) hf hb (by simpa [hin] using he) hin

/-- `DEC_FEED` answers whenever the cells of the frame in progress have been written and the cursor is in range. -/
theorem feed_completes {ck : Checksum} {b : Byte} {s : State} (hd : s.dec.framePos ≤ s.dcap)
    (hw : s.dec.abuf.written 0 s.dec.framePos) : ∃ t r, feed ck b s = .next (t, r) := by
  have h6 := s.dcap_ge
  have hacc : ∀ v, s.dec.framePos < s.dcap → accumulate v s = .next (stored v s) := fun v h =>
    accumulate_eq_next.2 ⟨h, rfl⟩
  unfold feed
  split
  · split
    · rw [hacc b (by omega)]; exact ⟨_, _, rfl⟩
    · exact ⟨_, _, rfl⟩
  · split
    · split
      · exact ⟨_, _, rfl⟩
      · split
        · next h₃ => exact validate_completes h₃ hd hw
        · exact ⟨_, _, rfl⟩
    · split
      · exact ⟨_, _, rfl⟩
      · split
        · exact ⟨_, _, rfl⟩
        · next hf =>
          have hf' : s.dec.framePos < s.dcap := by simpa [State.bufferFull] using hf
          split <;> (rw [hacc _ hf']; exact ⟨_, _, rfl⟩)

/-- `DEC_FEED` as a host operation answers exactly through `feed`. -/
theorem decFeedWith_eq_next {ck : Checksum} {b : Byte} {s t : State} :
    decFeedWith ck b s = .next t ↔
      ∃ u r, feed ck b s.fresh = .next (u, r) ∧ t = u.answer (.frameComplete r) := by
  rw [decFeedWith, andThen_eq_next]
  constructor
  · rintro ⟨⟨u, r⟩, hu, h⟩; cases h; exact ⟨u, r, hu, rfl⟩
  · rintro ⟨u, r, hu, rfl⟩; exact ⟨(u, r), hu, rfl⟩

/-- What `DEC_FEED` does to the decoder and answers depends on the decoder and the parameters alone; the rest of the
state it hands on. -/
theorem feed_congr {ck : Checksum} {b : Byte} {s u : State} {r : Bool} (h : feed ck b s = .next (u, r))
    (s' : State) (hd : s'.dec = s.dec) (hp : s'.params = s.params) :
    ∃ u', feed ck b s' = .next (u', r) ∧ u'.dec = u.dec ∧ u'.enc = s'.enc ∧ u'.params = u.params ∧
      u'.pending = s'.pending ∧ (s'.report = s.report → u'.report = u.report) := by
  have hdc := State.dcap_congr hp
  have hacc : ∀ v w, accumulate v s = .next w → ∃ w', accumulate v s' = .next w' ∧ w'.dec = w.dec ∧
      w'.enc = s'.enc ∧ w'.params = w.params ∧ w'.pending = s'.pending ∧ (s'.report = s.report → w'.report = w.report) := by
    intro v w hw
    obtain ⟨h1, rfl⟩ := accumulate_eq_next.1 hw
    exact ⟨_, accumulate_eq_next.2 ⟨by rw [hd, hdc]; exact h1, rfl⟩, by simp [hd], by simp, by simp [hp], by simp, by simp⟩
  unfold feed at h ⊢
  rw [hd]
  split at h
  · next h0 =>
    rw [if_pos h0]
    split at h
    · next hb =>
      rw [if_pos hb]
      obtain ⟨w, hw, h⟩ := andThen_eq_next.1 h
      cases h
      obtain ⟨w', hw', hr⟩ := hacc _ _ hw
      exact ⟨w', by rw [hw']; rfl, hr⟩
    · next hb => rw [if_neg hb]; cases h; exact ⟨s', rfl, hd, rfl, hp, rfl, id⟩
  · next h0 =>
    rw [if_neg h0]
    split at h
    · next hb =>
      rw [if_pos hb]
      split at h
      · next h1 => rw [if_pos h1]; cases h; exact ⟨s', rfl, hd, rfl, hp, rfl, id⟩
      · next h1 =>
        rw [if_neg h1]
        split at h
        · next h3 =>
          rw [if_pos h3]
          unfold validate at h ⊢
          rw [hd, hdc]
          obtain ⟨p, e1, h⟩ := andThen_eq_next.1 h
          obtain ⟨hh, e2, h⟩ := andThen_eq_next.1 h
          obtain ⟨l, e3, h⟩ := andThen_eq_next.1 h
          rw [e1, e2, e3]
          simp only [andThen_next]
          split at h
          · next hk =>
            rw [if_pos hk]
            obtain ⟨m, e4, h⟩ := andThen_eq_next.1 h
            cases h
            have : publishedBuffer s.dec.framePos (ckComputeCall ck p s') = .next m := by
              rw [← e4]; unfold publishedBuffer; simp only [ckComputeCall_params, ckComputeCall_dec, hp, hd]; rw [show (ckComputeCall ck p s').dcap = (ckComputeCall ck p s).dcap from hdc]; rfl
            refine ⟨_, by rw [acceptFrame, this]; rfl, ?_⟩
            simp [hd, hp]; intro hx; simp [hx]
          · next hk =>
            rw [if_neg hk]; cases h
            refine ⟨_, rfl, by simp [hd], by simp, by simp [hp], by simp, ?_⟩
            intro hx; simp [decFail, State.note, hx]
        · next h3 => rw [if_neg h3]; cases h; exact ⟨_, rfl, by simp [hd], by simp, by simp [hp], by simp, by intro hx; simp [decFail, State.note, hx]⟩
    · next hb =>
      rw [if_neg hb]
      split at h
      · next he => rw [if_pos he]; cases h; exact ⟨_, rfl, by simp [hd], by simp, by simp [hp], by simp, by intro hx; simp [hx]⟩
      · next he =>
        rw [if_neg he]
        have hbf : s'.bufferFull = s.bufferFull := by simp [State.bufferFull, hd, hdc]
        rw [hbf]
        split at h
        · next hf => rw [if_pos hf]; cases h; exact ⟨_, rfl, by simp [hd], by simp, by simp [hp], by simp, by intro hx; simp [decFail, State.note, hx]⟩
        · next hf =>
          rw [if_neg hf]
          split at h
          · next hi =>
            rw [if_pos hi]
            obtain ⟨w, hw, h⟩ := andThen_eq_next.1 h
            cases h
            obtain ⟨w', hw', h1, h2, h3, h4, h5⟩ := hacc _ _ hw
            exact ⟨w'.setEscape false, by rw [hw']; rfl, by simp [h1], by simp [h2], by simp [h3], by simp [h4], by simpa using h5⟩
          · next hi =>
            rw [if_neg hi]
            obtain ⟨w, hw, h⟩ := andThen_eq_next.1 h
            cases h
            obtain ⟨w', hw', hr⟩ := hacc _ _ hw
            exact ⟨w', by rw [hw']; rfl, hr⟩

end Sys2Proof.Machine
end

