-- ==== Sys2Proof/Laws/Drain.lean ====
section
/-! SUPPORT. What the shared operations of the payload side can do. -/

namespace Sys2Proof.Machine

/-- The accesses of `DEC_READN`'s loop from offset `k` on. -/
def writesFrom : Nat → List Byte → List Access
  | _, [] => []
  | k, v :: vs => .memWrite k v :: writesFrom (k + 1) vs

/-- `memWrites` adds its accesses to the report and touches nothing else. -/
theorem memWrites_eq (k : Nat) (out : List Byte) (s : State) : memWrites k out s =
    { s with report := { s.report with bus := s.report.bus ++ writesFrom k out } } := by
  induction out generalizing k s with
  | nil => simp [memWrites, writesFrom]
  | cons v vs ih => rw [memWrites, ih]; simp [writesFrom, State.access]

theorem readyCell_eq_next {s : State} {k : Nat} {v : Byte} :
    readyCell s k = .next v ↔ s.dec.readPos + k < s.dcap ∧ s.ready.read (s.dec.readPos + k) = some v :=
  loadCell_eq_next

theorem readyCells_eq_next {s : State} {n : Nat} {out : List Byte} :
    readyCells s n = .next out ↔
      out.length = n ∧ s.ready.holds s.dec.readPos out ∧ (n = 0 ∨ s.dec.readPos + n ≤ s.dcap) :=
  loadRange_eq_next

/-- Everything the copying part of `DEC_READN` can do. -/
theorem drain_eq_next {n : Nat} {s t : State} (h : drain n s = .next t) :
    ∃ out, out.length = n ∧ s.ready.holds s.dec.readPos out ∧ (n = 0 ∨ s.dec.readPos + n ≤ s.dcap) ∧
      t = { s with
        dec := { s.dec with readPos := s.dec.readPos + n, availableLen := s.dec.availableLen - n }
        report := { s.report with result := .copied n out, bus := s.report.bus ++ writesFrom 0 out } } := by
  obtain ⟨out, ho, h⟩ := andThen_eq_next.1 h
  obtain ⟨hl, hh, hc⟩ := readyCells_eq_next.1 ho
  cases h
  exact ⟨out, hl, hh, hc, by simp [memWrites_eq, State.consume, State.answer]⟩

end Sys2Proof.Machine
end

