-- ==== Sys2Proof/Laws/Encoder.lean ====
section
/-! SUPPORT. What the encoder's shared operations can do, said once: `emit`, `emitStuffed`, the payload loop and
the footer append bytes to `ebuf` at the cursor and touch nothing else. -/

namespace Sys2Proof.Machine

/-- From `s` to `t` the encoder has appended `bs` to `ebuf` at its cursor; the parameters, the decoder, the
requests and every other cell of `ebuf` are as before. -/
structure Emitted (bs : List Byte) (s t : State) : Prop where
  params : t.params = s.params
  dec : t.dec = s.dec
  pending : t.pending = s.pending
  framePos : t.enc.framePos = s.enc.framePos + bs.length
  below : ∀ a, a < s.enc.framePos → t.enc.ebuf.read a = s.enc.ebuf.read a
  holds : t.enc.ebuf.holds s.enc.framePos bs
  above : ∀ a, s.enc.framePos + bs.length ≤ a → t.enc.ebuf.read a = s.enc.ebuf.read a
  fits : s.enc.ebuf.fits s.ecap = true → t.enc.ebuf.fits s.ecap = true

theorem Emitted.ecap {bs : List Byte} {s t : State} (h : Emitted bs s t) : t.ecap = s.ecap :=
  State.ecap_congr h.params

theorem Emitted.trans {as bs : List Byte} {s t u : State} (h₁ : Emitted as s t) (h₂ : Emitted bs t u) :
    Emitted (as ++ bs) s u where
  params := h₂.params.trans h₁.params
  dec := h₂.dec.trans h₁.dec
  pending := h₂.pending.trans h₁.pending
  framePos := by rw [h₂.framePos, h₁.framePos, List.length_append]; omega
  below := fun a ha => by rw [h₂.below a (by rw [h₁.framePos]; omega), h₁.below a ha]
  holds := by
    rw [Memory.holds_append]
    refine ⟨fun k hk => ?_, ?_⟩
    · rw [h₂.below _ (by rw [h₁.framePos]; omega)]
      exact h₁.holds k hk
    · rw [← h₁.framePos]; exact h₂.holds
  above := fun a ha => by
    simp only [List.length_append] at ha
    rw [h₂.above a (by rw [h₁.framePos]; omega), h₁.above a (by omega)]
  fits := fun hf => by
    have := h₂.fits (h₁.ecap ▸ h₁.fits hf)
    rwa [h₁.ecap] at this

/-- Changing the checksum accumulator or the report around an emission does not matter to it. -/
theorem Emitted.of_same {bs : List Byte} {s s' t t' : State} (h : Emitted bs s t)
    (hs : s.params = s'.params ∧ s.dec = s'.dec ∧ s.pending = s'.pending ∧
      s.enc.framePos = s'.enc.framePos ∧ s.enc.ebuf = s'.enc.ebuf)
    (ht : t'.params = t.params ∧ t'.dec = t.dec ∧ t'.pending = t.pending ∧
      t'.enc.framePos = t.enc.framePos ∧ t'.enc.ebuf = t.enc.ebuf) : Emitted bs s' t' := by
  obtain ⟨hs₁, hs₂, hs₃, hs₄, hs₅⟩ := hs
  obtain ⟨ht₁, ht₂, ht₃, ht₄, ht₅⟩ := ht
  have hc : s'.ecap = s.ecap := State.ecap_congr hs₁.symm
  exact {
    params := by rw [ht₁, h.params, hs₁]
    dec := by rw [ht₂, h.dec, hs₂]
    pending := by rw [ht₃, h.pending, hs₃]
    framePos := by rw [ht₄, h.framePos, hs₄]
    below := by rw [ht₅, ← hs₄, ← hs₅]; exact h.below
    holds := by rw [ht₅, ← hs₄]; exact h.holds
    above := by rw [ht₅, ← hs₄, ← hs₅]; exact h.above
    fits := by rw [ht₅, hc, ← hs₅]; exact h.fits }

/-! ## EMIT -/

/-- `EMIT` in range answers, with one byte appended. -/
theorem emit_completes {w : Byte} {s : State} (h : s.enc.framePos < s.ecap) :
    emit w s = .next { s with enc := { s.enc with
      ebuf := s.enc.ebuf.write s.enc.framePos w, framePos := s.enc.framePos + 1 } } := by
  simp [emit, storeCell, h]

theorem emit_eq_next {w : Byte} {s t : State} (h : emit w s = .next t) :
    s.enc.framePos < s.ecap ∧ Emitted [w] s t ∧ t.enc.ckAcc = s.enc.ckAcc ∧ t.report = s.report := by
  simp only [emit, andThen_eq_next, storeCell_eq_next] at h
  obtain ⟨m, ⟨hi, rfl⟩, h⟩ := h
  cases h
  refine ⟨hi, ?_, rfl, rfl⟩
  exact {
    params := rfl
    dec := rfl
    pending := rfl
    framePos := rfl
    below := fun a ha => Memory.read_write_other _ _ (by omega)
    holds := Memory.holds_cons.2 ⟨by simp, Memory.holds_nil _ _⟩
    above := fun a ha => Memory.read_write_other _ _ (by simp at ha; omega)
    fits := fun hf => Memory.fits_write w hf hi }

/-! ## EMIT_STUFFED -/

theorem emitStuffed_eq_next {b : Byte} {s t : State} (h : emitStuffed b s = .next t) :
    Emitted (st b) s t ∧ t.enc.ckAcc = s.enc.ckAcc ∧ t.report = s.report := by
  unfold emitStuffed at h
  unfold st
  split at h
  · obtain ⟨u, h₁, h₂⟩ := andThen_eq_next.1 h
    obtain ⟨-, e₁, c₁, r₁⟩ := emit_eq_next h₁
    obtain ⟨-, e₂, c₂, r₂⟩ := emit_eq_next h₂
    rw [if_pos ‹_›]
    exact ⟨e₁.trans e₂, c₂.trans c₁, r₂.trans r₁⟩
  · obtain ⟨-, e, c, r⟩ := emit_eq_next h
    rw [if_neg ‹_›]
    exact ⟨e, c, r⟩

theorem emitStuffed_completes {b : Byte} {s : State} (h : s.enc.framePos + (st b).length ≤ s.ecap) :
    ∃ t, emitStuffed b s = .next t := by
  unfold emitStuffed
  unfold st at h
  split
  · simp only [*, if_true, List.length_cons, List.length_nil] at h
    rw [emit_completes (by omega), andThen_next]
    exact ⟨_, emit_completes (by
      show s.enc.framePos + 1 < s.ecap
      omega)⟩
  · simp only [*] at h
    exact ⟨_, emit_completes (by simp at h; omega)⟩

/-! ## The payload loop -/

/-- The accesses of the payload loop from offset `i` on, with `acc` folded before. -/
def loopAccesses (ck : Checksum) : List Byte → Nat → List Byte → List Access
  | _, _, [] => []
  | acc, i, b :: bs =>
    .memRead i b :: .ckUpdate b (ck (acc ++ [b])) :: loopAccesses ck (acc ++ [b]) (i + 1) bs

/-- Everything the payload loop can do. -/
theorem foldPayload_eq_next {ck : Checksum} {i : Nat} {pl : List Byte} {s t : State}
    (h : foldPayload ck i pl s = .next t) :
    Emitted (stuff pl) s t ∧ t.enc.ckAcc = s.enc.ckAcc ++ pl ∧
      t.report = { s.report with bus := s.report.bus ++ loopAccesses ck s.enc.ckAcc i pl } := by
  induction pl generalizing i s with
  | nil =>
    cases h
    refine ⟨?_, by simp, by simp [loopAccesses]⟩
    exact {
      params := rfl
      dec := rfl
      pending := rfl
      framePos := by simp [stuff]
      below := fun _ _ => rfl
      holds := Memory.holds_nil _ _
      above := fun _ _ => rfl
      fits := id }
  | cons b bs ih =>
    obtain ⟨u, h₁, h₂⟩ := andThen_eq_next.1 h
    obtain ⟨e₁, c₁, r₁⟩ := emitStuffed_eq_next h₁
    obtain ⟨e₂, c₂, r₂⟩ := ih h₂
    have e₁' : Emitted (st b) s u := e₁.of_same ⟨rfl, rfl, rfl, rfl, rfl⟩ ⟨rfl, rfl, rfl, rfl, rfl⟩
    refine ⟨e₁'.trans e₂, ?_, ?_⟩
    · rw [c₂, c₁]; simp
    · rw [r₂, r₁, c₁]; simp [loopAccesses]

theorem foldPayload_completes {ck : Checksum} {i : Nat} {pl : List Byte} {s : State}
    (h : s.enc.framePos + (stuff pl).length ≤ s.ecap) : ∃ t, foldPayload ck i pl s = .next t := by
  induction pl generalizing i s with
  | nil => exact ⟨s, rfl⟩
  | cons b bs ih =>
    simp only [stuff, List.length_append] at h
    obtain ⟨u, hu⟩ := emitStuffed_completes (b := b)
      (s := ckUpdateCall ck b (s.access (.memRead i b))) (by
        show s.enc.framePos + (st b).length ≤ s.ecap
        omega)
    obtain ⟨e, -⟩ := emitStuffed_eq_next hu
    have hp := e.framePos
    have hc := e.ecap
    obtain ⟨t, ht⟩ := ih (i := i + 1) (s := u) (by
      rw [hc, hp]
      show s.enc.framePos + _ + _ ≤ s.ecap
      omega)
    exact ⟨t, by rw [foldPayload, hu, andThen_next, ht]⟩

/-! ## The body and the footer of an accepted write -/

theorem writeBody_eq_next {ck : Checksum} {pl : List Byte} {s t : State} (h : writeBody ck pl s = .next t) :
    Emitted ([Config.flag] ++ stuff pl) { s with enc := { s.enc with framePos := 0 } } t ∧
      t.enc.ckAcc = pl ∧
      t.report = { s.report with bus := s.report.bus ++ .ckReset :: loopAccesses ck [] 0 pl } := by
  obtain ⟨u, h₁, h₂⟩ := andThen_eq_next.1 h
  obtain ⟨-, e₁, c₁, r₁⟩ := emit_eq_next h₁
  obtain ⟨e₂, c₂, r₂⟩ := foldPayload_eq_next h₂
  have e₁' : Emitted [Config.flag] { s with enc := { s.enc with framePos := 0 } } u :=
    e₁.of_same ⟨rfl, rfl, rfl, rfl, rfl⟩ ⟨rfl, rfl, rfl, rfl, rfl⟩
  refine ⟨e₁'.trans e₂, ?_, ?_⟩
  · rw [c₂, c₁]; simp
  · rw [r₂, r₁, c₁]; simp

theorem writeFooter_eq_next {c : Sum16} {s t : State} (h : writeFooter c s = .next t) :
    Emitted (st (loByte c) ++ (st (hiByte c) ++ [Config.flag])) s t ∧ t.enc.ckAcc = s.enc.ckAcc ∧
      t.report = s.report := by
  obtain ⟨u, h₁, h⟩ := andThen_eq_next.1 h
  obtain ⟨v, h₂, h₃⟩ := andThen_eq_next.1 h
  obtain ⟨e₁, c₁, r₁⟩ := emitStuffed_eq_next h₁
  obtain ⟨e₂, c₂, r₂⟩ := emitStuffed_eq_next h₂
  obtain ⟨-, e₃, c₃, r₃⟩ := emit_eq_next h₃
  exact ⟨e₁.trans (e₂.trans e₃), by rw [c₃, c₂, c₁], by rw [r₃, r₂, r₁]⟩

theorem writeBody_completes {ck : Checksum} {pl : List Byte} {s : State}
    (h : 1 + (stuff pl).length ≤ s.ecap) : ∃ t, writeBody ck pl s = .next t := by
  have h₀ := emit_completes (w := Config.flag)
    (s := ckResetCall { s with enc := { s.enc with framePos := 0 } }) (by
      show 0 < s.ecap
      omega)
  obtain ⟨t, ht⟩ := foldPayload_completes (ck := ck) (i := 0) (pl := pl)
    (s := { ckResetCall { s with enc := { s.enc with framePos := 0 } } with
      enc := { (ckResetCall { s with enc := { s.enc with framePos := 0 } }).enc with
        ebuf := s.enc.ebuf.write 0 Config.flag, framePos := 1 } }) h
  exact ⟨t, by rw [writeBody, h₀, andThen_next]; exact ht⟩

theorem writeFooter_completes {c : Sum16} {s : State}
    (h : s.enc.framePos + ((st (loByte c)).length + (st (hiByte c)).length + 1) ≤ s.ecap) :
    ∃ t, writeFooter c s = .next t := by
  obtain ⟨u, hu⟩ := emitStuffed_completes (b := loByte c) (s := s) (by omega)
  obtain ⟨e₁, -⟩ := emitStuffed_eq_next hu
  obtain ⟨v, hv⟩ := emitStuffed_completes (b := hiByte c) (s := u) (by
    rw [e₁.ecap, e₁.framePos]; omega)
  obtain ⟨e₂, -⟩ := emitStuffed_eq_next hv
  have h₃ := emit_completes (w := Config.flag) (s := v) (by
    rw [e₂.ecap, e₁.ecap, e₂.framePos, e₁.framePos]; omega)
  exact ⟨_, by rw [writeFooter, hu, andThen_next, hv, andThen_next, h₃]⟩

/-! ## Lengths (R74) -/

theorem length_st (b : Byte) : (st b).length = 1 + reservedCount [b] := by
  unfold st reservedCount
  split <;> simp [*]

theorem length_stuff (p : List Byte) : (stuff p).length = p.length + reservedCount p := by
  induction p with
  | nil => rfl
  | cons b bs ih =>
    simp only [stuff, List.length_append, length_st, ih, reservedCount, List.countP_cons, List.length_cons,
      List.countP_nil]
    omega

theorem reservedCount_le (p : List Byte) : reservedCount p ≤ p.length := List.countP_le_length

/-! ## ENC_WRITE -/

/-- An `ENC_WRITE` is not rejected exactly when it has a source and a length in range (R123). -/
theorem writeRejected_eq_false {srcOk : Bool} {length : Nat} {s : State} :
    writeRejected srcOk length s = false ↔ srcOk = true ∧ 0 < length ∧ length ≤ s.params.encP := by
  simp [writeRejected, and_assoc, Nat.pos_iff_ne_zero]

/-- Everything an accepted `ENC_WRITE` does when it answers. -/
theorem encWriteWith_eq_next {ck : Checksum} {srcOk : Bool} {length : Nat} {pl : List Byte} {s t : State}
    (hr : writeRejected srcOk length s = false) (h : encWriteWith ck srcOk length pl s = .next t) :
    pl.length = length ∧ Emitted (frameOf ck pl) { s with enc := { s.enc with framePos := 0 } } t ∧
      t.enc.ckAcc = pl ∧
      t.report = { result := .count length, conds := [], bus := .ckReset :: loopAccesses ck [] 0 pl } := by
  simp only [encWriteWith, hr, Bool.false_eq_true, if_false] at h
  split at h
  · next hl =>
    obtain ⟨u, hu, h⟩ := andThen_eq_next.1 h
    obtain ⟨v, hv, h⟩ := andThen_eq_next.1 h
    cases h
    obtain ⟨e₁, c₁, r₁⟩ := writeBody_eq_next hu
    obtain ⟨e₂, c₂, r₂⟩ := writeFooter_eq_next hv
    have hc : runningSum ck u = ck pl := by simp [runningSum, c₁]
    have hf : frameOf ck pl = [Config.flag] ++ stuff pl ++
        (st (loByte (ck pl)) ++ (st (hiByte (ck pl)) ++ [Config.flag])) := by simp [frameOf]
    rw [hc] at e₂
    refine ⟨hl, ?_, by simp [c₂, c₁], by simp [State.answer, r₂, r₁]⟩
    rw [hf]
    exact (e₁.trans e₂).of_same ⟨rfl, rfl, rfl, rfl, rfl⟩ ⟨rfl, rfl, rfl, rfl, rfl⟩
  · cases h

/-- An accepted `ENC_WRITE` whose `pl` has exactly `length` bytes answers: the buffer is long enough (R129). -/
theorem encWriteWith_completes {ck : Checksum} {srcOk : Bool} {length : Nat} {pl : List Byte} {s : State}
    (hr : writeRejected srcOk length s = false) (hl : pl.length = length) :
    ∃ t, encWriteWith ck srcOk length pl s = .next t := by
  obtain ⟨-, h₀, h₁⟩ := writeRejected_eq_false.1 hr
  have hcap : s.ecap = 2 * s.params.encP + 6 := rfl
  have hst := length_stuff pl
  have hrc := reservedCount_le pl
  obtain ⟨u, hu⟩ := writeBody_completes (ck := ck) (pl := pl) (s := s.fresh) (by
    rw [State.ecap_fresh]; omega)
  obtain ⟨e₁, -, -⟩ := writeBody_eq_next hu
  have l₁ := length_st (loByte (runningSum ck u))
  have l₂ := length_st (hiByte (runningSum ck u))
  have l₃ := reservedCount_le [loByte (runningSum ck u)]
  have l₄ := reservedCount_le [hiByte (runningSum ck u)]
  obtain ⟨v, hv⟩ := writeFooter_completes (c := runningSum ck u) (s := u) (by
    have hf := e₁.framePos
    rw [State.ecap_congr (s := s) e₁.params]
    simp at hf l₃ l₄
    omega)
  exact ⟨v.answer (.count length), by
    simp only [encWriteWith, hr, hl, hu, hv, Bool.false_eq_true, if_false, if_true, andThen_next]⟩

end Sys2Proof.Machine
end

