-- ==== Sys2Proof/Laws/Operands.lean ====
section
/-! SUPPORT. The checksum's two bytes: splitting and assembling undo each other (R76, R203 j, l). -/

namespace Sys2Proof.Machine

theorem assemble_hiByte_loByte (c : Sum16) : assemble (hiByte c) (loByte c) = c := by
  ext i hi
  by_cases h : i < 8
  · simp [assemble, hiByte, loByte, h, BitVec.getLsbD_eq_getElem, hi]
  · have h₁ : 8 + (i - 8) = i := by omega
    have h₂ : i - 8 < 8 := by omega
    simp [assemble, hiByte, loByte, h, h₁, h₂, BitVec.getLsbD_eq_getElem, hi]

theorem loByte_assemble (h l : Byte) : loByte (assemble h l) = l := by
  ext i hi
  have h₁ : i < 16 := by omega
  simp [assemble, loByte, hi, h₁, BitVec.getLsbD_eq_getElem]

theorem hiByte_assemble (h l : Byte) : hiByte (assemble h l) = h := by
  ext i hi
  have h₁ : 8 + i < 16 := by omega
  simp [assemble, hiByte, hi, h₁, BitVec.getLsbD_eq_getElem]

end Sys2Proof.Machine
end

