-- ==== Sys2Proof/Laws/PerInstr.lean ====
section
/-! SUPPORT. Laws proved constructor by constructor. Family `DecodeFormat`: an operation is only ever decoded from a
request of its row's format (R90), and a decoded wire symbol is well formed. -/

namespace Sys2Proof.Laws.DecodeFormat

/-- The formats of R90, the two wire formats as one. -/
inductive Format where
  | hostOp
  | ckPort
  | wire
  deriving DecidableEq, Repr

/-- The format of a request. -/
def ofRequest : Request → Format
  | .hostOp _ _ => .hostOp
  | .ckPort _ _ => .ckPort
  | .wire _ _ => .wire

/-- The format of an operation's row. -/
def ofInstr : Instr → Format
  | .encReset | .encWrite _ _ _ | .encSize | .encData _ | .decReset | .decFeed _ | .decAvail | .decSize | .decRead1
  | .decReadn _ _ | .decData _ => .hostOp
  | .flag | .esc | .data _ | .escpair _ => .wire
  | .ckReset | .ckUpdate _ | .ckCompute _ => .ckPort

/-- Whatever request decodes to `i` is of `i`'s format, and `i` is well formed if that is a wire format. -/
def Statement (i : Instr) : Prop :=
  ∀ (r : Request) (left : List Request), decode r = .ok (i, left) →
    ofRequest r = ofInstr i ∧ (ofInstr i = .wire → i.wellFormed = true)

theorem hostOp_format {op : BitVec 4} {args : List Arg} {i : Instr} (h : decodeHostOp op args = .ok i) :
    ofInstr i = .hostOp := by
  unfold decodeHostOp at h
  split at h <;>
    simp only [noArgs_eq_ok, natArg_eq_ok, byteArg_eq_ok, readnArgs_eq_ok, writeArgs_eq_ok, reduceCtorEq] at h
  all_goals obtain ⟨_, _, _, _, rfl⟩ := h; rfl

theorem ckPort_format {sel : BitVec 2} {args : List Arg} {i : Instr} (h : decodeCkPort sel args = .ok i) :
    ofInstr i = .ckPort := by
  unfold decodeCkPort at h
  split at h <;> simp only [noArgs_eq_ok, byteArg_eq_ok, bytesArg_eq_ok, reduceCtorEq] at h
  all_goals obtain ⟨_, _, rfl⟩ := h; rfl

theorem wire_format (first : Byte) (more : List Byte) :
    ofInstr (decodeWire first more).1 = .wire ∧ (decodeWire first more).1.wellFormed = true := by
  obtain ⟨d, rest, -, -, h⟩ | h := decodeWire_cases first more <;> rw [h]
  · exact ⟨rfl, rfl⟩
  · obtain ⟨-, h⟩ | ⟨-, h⟩ | ⟨hd, h⟩ := wireSymbol_cases first <;> simp only [h]
    · exact ⟨rfl, rfl⟩
    · exact ⟨rfl, rfl⟩
    · exact ⟨rfl, hd⟩

/-- The three formats at once. -/
theorem all (i : Instr) : Statement i := by
  intro r left h
  cases r with
  | hostOp op args =>
    have hf := hostOp_format (decode_hostOp_eq_ok.1 h).1
    exact ⟨hf.symm, fun hw => by rw [hf] at hw; cases hw⟩
  | ckPort sel args =>
    have hf := ckPort_format (decode_ckPort_eq_ok.1 h).1
    exact ⟨hf.symm, fun hw => by rw [hf] at hw; cases hw⟩
  | wire first more =>
    have hd := wire_format first more
    rw [decode_wire_eq_ok.1 h] at hd
    exact ⟨hd.1.symm, fun _ => hd.2⟩

theorem encReset : Statement .encReset := all _
theorem encWrite (srcOk : Bool) (length : Nat) (pl : List Byte) : Statement (.encWrite srcOk length pl) := all _
theorem encSize : Statement .encSize := all _
theorem encData (i : Nat) : Statement (.encData i) := all _
theorem decReset : Statement .decReset := all _
theorem decFeed (byte : Byte) : Statement (.decFeed byte) := all _
theorem decAvail : Statement .decAvail := all _
theorem decSize : Statement .decSize := all _
theorem decRead1 : Statement .decRead1 := all _
theorem decReadn (dstOk : Bool) (maxLen : Nat) : Statement (.decReadn dstOk maxLen) := all _
theorem decData (k : Nat) : Statement (.decData k) := all _
theorem flag : Statement .flag := all _
theorem esc : Statement .esc := all _
theorem data (d : Byte) : Statement (.data d) := all _
theorem escpair (d : Byte) : Statement (.escpair d) := all _
theorem ckReset : Statement .ckReset := all _
theorem ckUpdate (b : Byte) : Statement (.ckUpdate b) := all _
theorem ckCompute (s : List Byte) : Statement (.ckCompute s) := all _

end Sys2Proof.Laws.DecodeFormat
end

