-- ==== Sys2Proof/Tests/Slice0.lean ====
section
/-! SUPPORT. Our own tests: ill-formed operations, decoding, the spec's vectors (spec/95_test_vectors.md, derived by
its authors from the rules), and a witness for the hypotheses of every statement of the certificate. -/

namespace Sys2Proof.Tests

open Sys2Proof Sys2Proof.Machine

/-! ## Well-formedness (R85, R73) -/

theorem test_wf_payload_of_its_length : (Instr.encWrite true 3 [0x01, 0x7E, 0x02]).wellFormed = true := by decide
theorem test_wf_refuses_wrong_payload_length : (Instr.encWrite true 2 [0x01]).wellFormed = false := by decide
theorem test_wf_payload_without_source_is_not_looked_at :
    (Instr.encWrite false 2 [0x01]).wellFormed = true := by decide
theorem test_wf_refuses_flag_as_data : (Instr.data 0x7E).wellFormed = false := by decide
theorem test_wf_refuses_esc_as_data : (Instr.data 0x7D).wellFormed = false := by decide

/-! ## Decoding: codes and symbols written out from R84, R89 and R73 -/

theorem test_decode_encReset : decode (.hostOp 0b0000#4 []) = .ok (.encReset, []) := by decide
theorem test_decode_encWrite : decode (.hostOp 0b0001#4 [.bit true, .nat 2, .bytes [0x01, 0x7E]]) =
    .ok (.encWrite true 2 [0x01, 0x7E], []) := by decide
theorem test_decode_encWrite_no_source : decode (.hostOp 0b0001#4 [.bit false, .nat 2, .bytes []]) =
    .ok (.encWrite false 2 [], []) := by decide
theorem test_decode_encSize : decode (.hostOp 0b0010#4 []) = .ok (.encSize, []) := by decide
theorem test_decode_encData : decode (.hostOp 0b0011#4 [.nat 3]) = .ok (.encData 3, []) := by decide
theorem test_decode_decReset : decode (.hostOp 0b1000#4 []) = .ok (.decReset, []) := by decide
theorem test_decode_decFeed : decode (.hostOp 0b1001#4 [.byte 0x7E]) = .ok (.decFeed 0x7E, []) := by decide
theorem test_decode_decAvail : decode (.hostOp 0b1010#4 []) = .ok (.decAvail, []) := by decide
theorem test_decode_decSize : decode (.hostOp 0b1011#4 []) = .ok (.decSize, []) := by decide
theorem test_decode_decRead1 : decode (.hostOp 0b1100#4 []) = .ok (.decRead1, []) := by decide
theorem test_decode_decReadn : decode (.hostOp 0b1101#4 [.bit true, .nat 5]) = .ok (.decReadn true 5, []) := by decide
theorem test_decode_decData : decode (.hostOp 0b1110#4 [.nat 4]) = .ok (.decData 4, []) := by decide
theorem test_decode_flag : decode (.wire 0b01111110#8 []) = .ok (.flag, []) := by decide
theorem test_decode_esc : decode (.wire 0b01111101#8 []) = .ok (.esc, []) := by decide
theorem test_decode_data : decode (.wire 0b01000001#8 []) = .ok (.data 0x41, []) := by decide
theorem test_decode_escpair : decode (.wire 0b01111101#8 [0b01011110#8]) = .ok (.escpair 0x5E, []) := by decide
theorem test_decode_ckReset : decode (.ckPort 0b00#2 []) = .ok (.ckReset, []) := by decide
theorem test_decode_ckUpdate : decode (.ckPort 0b01#2 [.byte 0x7E]) = .ok (.ckUpdate 0x7E, []) := by decide
theorem test_decode_ckCompute : decode (.ckPort 0b10#2 [.bytes [0x01, 0x7E, 0x02]]) =
    .ok (.ckCompute [0x01, 0x7E, 0x02], []) := by decide

theorem test_decode_refuses_unassigned_host_code :
    decode (.hostOp 0b0100#4 []) = .error .unassignedHostOp := by decide
theorem test_decode_refuses_unassigned_ck_code : decode (.ckPort 0b11#2 []) = .error .unassignedCkPort := by decide
theorem test_decode_refuses_missing_operand : decode (.hostOp 0b1001#4 []) = .error .operandForm := by decide
theorem test_decode_takes_one_symbol_off_the_wire :
    decode (.wire 0x7D [0x5E, 0x41, 0x42]) = .ok (.escpair 0x5E, [.wire 0x41 [0x42]]) := by decide

/-! The words of spec/opcode_table.json, numbered as the table numbers them. -/

theorem test_table_encReset : decodeTableWord 4 0 = some .encReset := by decide
theorem test_table_encWrite : decodeTableWord 4 1 = some (.encWrite false 0 []) := by decide
theorem test_table_decFeed : decodeTableWord 4 9 = some (.decFeed 0) := by decide
theorem test_table_decReadn : decodeTableWord 4 13 = some (.decReadn false 0) := by decide
theorem test_table_unassigned : decodeTableWord 4 4 = none ∧ decodeTableWord 4 15 = none := by decide
/-- R90: 8 bits are WIRE_BYTE, where a HOST_OP row or a CK_PORT row has the same value too. -/
theorem test_table_eight_bits_are_a_wire_byte : decodeTableWord 8 0x00 = some (.data 0x00) ∧
    decodeTableWord 8 0x09 = some (.data 0x09) ∧ decodeTableWord 2 0 = some .ckReset := by decide
theorem test_table_pair_without_esc : decode (tableRequest 16 0x4142) = .ok (.data 0x41, [.wire 0x42 []]) := by decide
theorem test_table_data_last : decodeTableWord 8 0x05 = some (.data 0x05) ∧ decodeTableWord 8 0x0F = some (.data 0x0F) ∧
    decodeTableWord 8 0x10 = some (.data 0x10) := by decide
theorem test_table_flag : decodeTableWord 8 0x7E = some .flag := by decide
theorem test_table_esc : decodeTableWord 8 0x7D = some .esc := by decide
theorem test_table_escpair : decodeTableWord 16 0x7D00 = some (.escpair 0x00) := by decide
theorem test_table_ckCompute : decodeTableWord 2 2 = some (.ckCompute []) := by decide

/-! ## A small core, and the checksum stand-ins of 95_test_vectors.md section 0 -/

/-- A core with the given capacities, everything else as after reset. -/
def small (encP decP : Nat) : State := { State.reset with params := ⟨encP, decP, false⟩ }

/-- The small core with a given decoder. -/
def withDec (d : Dec) : State := { small 3 3 with dec := d }

/-- `CK_SUM`: the sum of the bytes modulo 65536. -/
def ckSum : Checksum := fun s => s.foldl (fun a b => a + b.zeroExtend 16) 0

/-- `CK_CONST(k)`. -/
def ckConst (k : Sum16) : Checksum := fun _ => k

/-- What a next state shows through `f`; nothing otherwise. -/
def shown {α : Type} (f : State → α) : Host.Outcome State Fault Refusal → Option α
  | .next s => some (f s)
  | .fault _ => none
  | .refused _ => none

/-- The bytes of a buffer that starts at cell 0 and has no gap. -/
def bytesOf (m : Memory) : List Byte := m.map (·.2)

/-- The cursor, the flag, and the result. -/
def feedView (s : State) : Nat × Bool × Result := (s.dec.framePos, s.dec.inEscape, s.report.result)

/-! ## ENC (vectors E2, E6, E17) -/

theorem test_encWrite_E2_and_pl_not_read_without_source :
    shown (fun s => (bytesOf s.enc.ebuf, s.enc.framePos, s.report.result))
        (encWriteWith ckSum true 1 [0x7E] (small 4 4)) =
      some ([0x7E, 0x7D, 0x5E, 0x7D, 0x5E, 0x00, 0x7E], 7, .count 1) ∧
    exec (.encWrite false 2 [0x01]) (small 4 4) =
      .next { small 4 4 with report := ⟨.count 0, [.encReject], []⟩ } := ⟨by decide, by rfl⟩

theorem test_encWrite_E6_fills_the_buffer :
    shown (fun s => (bytesOf s.enc.ebuf, s.enc.framePos, s.report.result))
        (encWriteWith (ckConst 0x7D7E) true 2 [0x7E, 0x7E] (small 2 2)) =
      some ([0x7E, 0x7D, 0x5E, 0x7D, 0x5E, 0x7D, 0x5E, 0x7D, 0x5D, 0x7E], 10, .count 2) := by decide

theorem test_encReset_clears_the_accumulator :
    shown (fun s => s.enc.ckAcc) (exec .encReset { small 4 4 with enc := ⟨8, [0x01], []⟩ }) = some [] := by decide

theorem test_encSize_returns_wire_bytes :
    shown (fun s => s.report.result) (exec .encSize { small 4 4 with enc := ⟨8, [], []⟩ }) = some (.count 8) := by
  decide

theorem test_encData_last_byte :
    shown (fun s => s.report.result) (exec (.encData 1)
        { small 4 4 with enc := ⟨2, [], [(0, 0x7E), (1, 0xAA)]⟩ }) = some (.byte 0xAA) := by decide

theorem test_encData_E17_empty_window : exec (.encData 0) (small 4 4) = .refused .outsideEncoderView := by rfl

/-! ## The checksum port (95_test_vectors.md section 2.2) -/

theorem test_ckReset_empties :
    shown (fun s => s.enc.ckAcc) (exec .ckReset { small 4 4 with enc := ⟨0, [0xFF], []⟩ }) = some [] := by decide

theorem test_ckUpdate_folds_after_earlier_bytes :
    shown (fun s => s.report.result) (ckUpdateWith ckSum 0x7E { small 4 4 with enc := ⟨0, [0x01], []⟩ }) =
      some (.sum 0x007F) := by decide

theorem test_ckCompute_one_shot :
    shown (fun s => (s.report.result, s.enc.ckAcc))
        (ckComputeWith ckSum [0x01, 0x7E, 0x02] { small 4 4 with enc := ⟨0, [0xFF], []⟩ }) =
      some (.sum 0x0081, [0xFF]) := by decide

/-! ## DEC_FEED and the wire symbols (R146 to R157 examples; FD1) -/

theorem test_decReset_drops_undrained :
    shown (fun s => (s.dec.availableLen, s.dec.readPos)) (exec .decReset (withDec ⟨4, true, 2, 3, [], []⟩)) =
      some (0, 0) := by decide

theorem test_decFeed_FD1_closing_flag_publishes :
    shown (fun s => (feedView s, s.dec.availableLen, s.dec.readPos, bytesOf s.dec.rbuf))
        (decFeedWith ckSum 0x7E
          (withDec ⟨4, false, 0, 0, [(0, 0x7E), (1, 0x41), (2, 0x41), (3, 0x00)], []⟩)) =
      some ((0, false, .frameComplete true), 1, 1, [0x7E, 0x41, 0x41, 0x00]) := by decide

theorem test_decFeed_mismatch_keeps_undrained_payload :
    shown (fun s => (feedView s, s.dec.availableLen, s.dec.readPos, s.report.conds))
        (decFeedWith ckSum 0x7E
          (withDec ⟨4, false, 2, 3, [(0, 0x7E), (1, 0x41), (2, 0x42), (3, 0x00)], []⟩)) =
      some ((0, false, .frameComplete false), 3, 2, [.decBadsum]) := by decide

theorem test_flag_opens_a_frame :
    shown (fun s => (feedView s, s.dec.abuf)) (exec .flag (small 3 3)) =
      some ((1, false, .frameComplete false), [(0, 0x7E)]) := by decide

theorem test_esc_while_escaping_stores_5D :
    shown (fun s => (feedView s, s.dec.abuf)) (exec .esc (withDec ⟨1, true, 0, 0, [(0, 0x7E)], []⟩)) =
      some ((2, false, .frameComplete false), [(0, 0x7E), (1, 0x5D)]) := by decide

theorem test_data_overflow_drops_the_frame :
    shown (fun s => (feedView s, s.report.conds)) (exec (.data 0x55) (withDec ⟨12, false, 0, 0, [], []⟩)) =
      some ((0, false, .frameComplete false), [.decOverflow]) := by decide

theorem test_escpair_stores_7E :
    shown (fun s => (s.dec.framePos, s.dec.abuf, s.report.result))
        (exec (.escpair 0x5E) (withDec ⟨1, false, 0, 0, [(0, 0x7E)], []⟩)) =
      some (2, [(0, 0x7E), (1, 0x7E)], .framesComplete false false) := by decide

/-! ## The drains (L1-2; R173, R175, R177 examples) -/

/-- After the document's partial drain: five of ten bytes taken. -/
def halfDrained : State :=
  withDec ⟨0, false, 6, 5, [], [(6, 0x06), (7, 0x07), (8, 0x08), (9, 0x09), (10, 0x0A)]⟩

theorem test_decAvail_counts_undrained : shown (fun s => s.report.result) (exec .decAvail halfDrained) =
    some (.count 5) := by decide
theorem test_decSize_counts_undrained : shown (fun s => s.report.result) (exec .decSize halfDrained) =
    some (.count 5) := by decide
theorem test_decRead1_takes_byte_six :
    shown (fun s => (s.report.result, s.dec.readPos, s.dec.availableLen)) (exec .decRead1 halfDrained) =
      some (.byte 0x06, 7, 4) := by decide
theorem test_decRead1_empty_is_zero :
    shown (fun s => (s.report.result, s.dec.readPos)) (exec .decRead1 (small 3 3)) = some (.byte 0x00, 0) := by decide
theorem test_decReadn_clips_to_available :
    shown (fun s => (s.report.result, s.dec.readPos, s.dec.availableLen)) (exec (.decReadn true 1000) halfDrained) =
      some (.copied 5 [0x06, 0x07, 0x08, 0x09, 0x0A], 11, 0) := by decide
theorem test_decReadn_null_destination :
    shown (fun s => (s.report.result, s.dec.availableLen)) (exec (.decReadn false 5) halfDrained) =
      some (.copied 0 [], 5) := by decide
theorem test_decData_last_of_window :
    shown (fun s => (s.report.result, s.dec.availableLen)) (exec (.decData 4) halfDrained) =
      some (.byte 0x0A, 5) := by decide
theorem test_decData_past_window : exec (.decData 5) halfDrained = .refused .outsideDecoderView := by rfl

/-! ## Steps from reset -/

theorem test_step_runs_table_word : shown (fun s => (s.dec.framePos, s.pending))
    (step (State.reset.withFetchWord 8 0x7E)) = some (1, []) := by decide
theorem test_withFetchWord_by_width : step ((small 3 3).withFetchWord 8 0x09) = exec (.data 0x09) (small 3 3) ∧
    step ((small 3 3).withFetchWord 4 0x9) = exec (.decFeed 0x00) (small 3 3) := ⟨rfl, rfl⟩
theorem test_step_refuses_unassigned : step (State.reset.withFetchWord 4 15) =
    .refused (.badRequest .unassignedHostOp) := by rfl

/-! ## Witnesses: a state and operands that meet the hypotheses of each statement of the certificate -/

/-- The checksum of the payload that stands in `busy`'s ready buffer. -/
def readySum : Sum16 := Config.ck [0x01, 0x02]

/-- A frame in progress with a pending escape, and one of two decoded payload bytes still undrained. -/
def busy : State := withDec {
  framePos := 3, inEscape := true, readPos := 2, availableLen := 1
  abuf := [(0, 0x7E), (1, 0x41), (2, 0x42)]
  rbuf := [(0, 0x7E), (1, 0x01), (2, 0x02), (3, loByte readySum), (4, hiByte readySum)] }

/-- `busy` between frames. -/
def between : State := { busy with dec := { busy.dec with framePos := 0, inEscape := false } }

/-- `busy` just after an opening FLAG. -/
def armed : State := { busy with dec := { busy.dec with framePos := 1, inEscape := false } }

theorem encInv_small_dec (d : Dec) : EncInv (withDec d) where
  fits := rfl
  bound := Nat.zero_le _
  frame := .inl rfl

/-- FeedFollowsTheTransitionGraph, EscPairIsTwoFeeds, DecoderAlwaysRecovers: their one hypothesis. -/
theorem witness_inv_busy : CodecInv busy where
  enc := encInv_small_dec _
  dec := { fitsA := rfl, fitsR := rfl, bound := by decide, idle := by decide, head := fun _ => rfl,
           taken := by decide, avail := by decide, tail := by decide, cursor := by decide,
           undrained := by decide }

theorem witness_inv_between : CodecInv between where
  enc := encInv_small_dec _
  dec := { fitsA := rfl, fitsR := rfl, bound := by decide, idle := by decide, head := fun _ => rfl,
           taken := by decide, avail := by decide, tail := by decide, cursor := by decide,
           undrained := by decide }

theorem witness_inv_armed : CodecInv armed where
  enc := encInv_small_dec _
  dec := { fitsA := rfl, fitsR := rfl, bound := by decide, idle := by decide, head := fun _ => rfl,
           taken := by decide, avail := by decide, tail := by decide, cursor := by decide,
           undrained := by decide }

/-- `ReadyFrameInv` is met with a payload in the ready buffer, not only by an empty one. -/
theorem witness_readyFrame_busy : ReadyFrameInv busy := by
  refine fun _ => .inr ⟨[0x01, 0x02], rfl, by decide, fun k hk => ?_⟩
  match k, hk with
  | 0, _ => rfl
  | 1, _ => rfl
  | 2, _ => rfl
  | 3, _ => rfl
  | 4, _ => rfl

theorem decInv_small : DecInv (small 3 3) :=
  { fitsA := rfl, fitsR := rfl, bound := by decide, idle := by decide, head := by decide,
    taken := by decide, avail := by decide, tail := by decide, cursor := by decide,
    undrained := by decide }

theorem write_answers {length : Nat} {pl : List Byte} {s : State} (hr : writeRejected true length s = false)
    (hl : pl.length = length) : ∃ t, exec (.encWrite true length pl) s = .next t :=
  encWriteWith_completes (ck := Config.ck) hr hl

/-- The invariant is met with a frame in the encoder's buffer. -/
theorem witness_inv_with_encoder_frame : ∃ t, exec (.encWrite true 3 [0x7E, 0x7D, 0x41]) (small 3 3) = .next t ∧
    CodecInv t ∧ 0 < t.enc.framePos := by
  have hr : writeRejected true 3 (small 3 3) = false := by decide
  obtain ⟨t, ht⟩ := encWriteWith_completes (ck := Config.ck) (pl := [0x7E, 0x7D, 0x41]) hr rfl
  obtain ⟨-, e, -, -⟩ := encWriteWith_eq_next hr ht
  have hf : t.enc.framePos = (frameOf Config.ck [0x7E, 0x7D, 0x41]).length := by simpa using e.framePos
  have hd : t = { t with params := ⟨3, 3, false⟩, dec := (small 3 3).dec } := by
    have h₁ : t.params = _ := e.params
    have h₂ : t.dec = _ := e.dec
    rw [← h₂]; change t.params = ⟨3, 3, false⟩ at h₁; rw [← h₁]
  have hl : ∀ b : Byte, (st b).length ≤ 2 := by decide
  have hle : (frameOf Config.ck [0x7E, 0x7D, 0x41]).length ≤ 11 := by
    have h₁ := hl (loByte (Config.ck [0x7E, 0x7D, 0x41]))
    have h₂ := hl (hiByte (Config.ck [0x7E, 0x7D, 0x41]))
    have h₃ : (stuff [0x7E, 0x7D, 0x41]).length = 5 := by decide
    simp only [frameOf, List.length_append, List.length_singleton, h₃]
    omega
  refine ⟨t, ht, ⟨⟨?_, ?_, .inr ⟨[0x7E, 0x7D, 0x41], by decide, ?_, hf, e.holds⟩⟩, ?_⟩, ?_⟩
  · rw [e.ecap]; exact e.fits rfl
  · rw [e.ecap, hf]; exact Nat.le_trans hle (by decide)
  · rw [e.params]; decide
  · rw [hd]
    exact ⟨decInv_small.fitsA, decInv_small.fitsR, decInv_small.bound, decInv_small.idle, decInv_small.head,
      decInv_small.taken, decInv_small.avail, decInv_small.tail, decInv_small.cursor, decInv_small.undrained⟩
  · rw [hf]; simp [frameOf]

/-! ### ENC -/

/-- EncWriteRejectedChangesNothing: each cause, and `length = ENC_P` accepted, `ENC_P + 1` not. -/
theorem witness_encWrite_rejected :
    (false = false ∨ 3 = 0 ∨ (small 3 3).params.encP < 3) ∧ (true = false ∨ 0 = 0 ∨ (small 3 3).params.encP < 0) ∧
    (true = false ∨ 4 = 0 ∨ (small 3 3).params.encP < 4) ∧
    ([0x7E, 0x7D, 0x41] : List Byte).length = (small 3 3).params.encP := by decide

/-- EncWriteLeavesTheFrame, EncWriteOutwardAccesses, EncWriteSizeWithinBuffer, EncFrameReadsTheFrameOut: at
`length = ENC_P` and at `length = 1`. -/
theorem witness_encWrite_accepted :
    (0 < 3 ∧ 3 ≤ (small 3 3).params.encP ∧ ([0x7E, 0x7D, 0x41] : List Byte).length = 3) ∧
    (0 < 1 ∧ 1 ≤ (small 3 3).params.encP ∧ ([0x00] : List Byte).length = 1) := by decide

/-- EncWriteFrame: a next state after an accepted and after a rejected write. -/
theorem witness_encWrite_frame :
    (writeRejected true 3 (small 3 3) = false ∧ ∃ t, exec (.encWrite true 3 [0x7E, 0x7D, 0x41]) (small 3 3) = .next t) ∧
    (writeRejected true 4 (small 3 3) = true ∧ ∃ t, exec (.encWrite true 4 []) (small 3 3) = .next t) :=
  ⟨⟨by decide, write_answers (by decide) rfl⟩, by decide, _, rfl⟩

/-- EncWriteForgetsThePast: two cores of the same capacities with different pasts. -/
theorem witness_encWrite_two_pasts :
    (small 3 3).params = busy.params ∧ small 3 3 ≠ busy ∧
    (∃ t, exec (.encWrite true 1 [0x7E]) (small 3 3) = .next t) ∧ ∃ t, exec (.encWrite true 1 [0x7E]) busy = .next t :=
  ⟨rfl, fun h => absurd (congrArg (fun s => s.dec.framePos) h) (by decide),
    write_answers (by decide) rfl, write_answers (by decide) rfl⟩

/-- EncDataShowsTheView: the last cell of the view, and the first cell outside it. -/
theorem witness_encData :
    1 < (2 : Nat) ∧ 1 < (small 3 3).ecap ∧ Memory.read [(0, 0x7E), (1, 0xAA)] 1 = some 0xAA ∧
    ({ small 3 3 with enc := ⟨2, [], [(0, 0x7E), (1, 0xAA)]⟩ } : State).enc.framePos ≤ 2 := by decide

/-! ### DEC_FEED -/

/-- FeedFlagOpensFrame, FeedIgnoresNoiseWhileIdle. -/
theorem witness_feed_idle : (small 3 3).dec.framePos = 0 ∧ (0x7D : Byte) ≠ 0x7E := by decide
/-- FeedIgnoresSecondFlag. -/
theorem witness_feed_armed : armed.dec.framePos = 1 := by decide
/-- FeedDropsShortFrame. -/
theorem witness_feed_short : (withDec ⟨2, true, 0, 0, [], []⟩).dec.framePos = 2 := by decide

/-- FeedEscapeSetsTheFlag: at a full buffer and just after the opening FLAG. -/
theorem witness_feed_escape :
    0 < (withDec ⟨12, false, 0, 0, [], []⟩).dec.framePos ∧ 0 < armed.dec.framePos ∧ armed.dec.inEscape = false := by
  decide

/-- FeedOverflowDropsFrame: a plain byte, and an ESC while escaping. -/
theorem witness_feed_overflow :
    ((withDec ⟨12, false, 0, 0, [], []⟩).dcap ≤ 12 ∧ (0x55 : Byte) ≠ 0x7E ∧ ((0x55 : Byte) = 0x7D → false = true)) ∧
    ((withDec ⟨12, true, 0, 0, [], []⟩).dcap ≤ 12 ∧ (0x7D : Byte) ≠ 0x7E ∧ ((0x7D : Byte) = 0x7D → true = true)) := by
  decide

/-- FeedStoresUnescapedByte and FeedStoresPlainByte: at the last free cell and at the first. -/
theorem witness_feed_store :
    (1 ≤ (withDec ⟨11, true, 0, 0, [], []⟩).dec.framePos ∧ 11 < (withDec ⟨11, true, 0, 0, [], []⟩).dcap ∧
      (0x7D : Byte) ≠ 0x7E ∧ (withDec ⟨11, true, 0, 0, [], []⟩).dec.inEscape = true) ∧
    (1 ≤ armed.dec.framePos ∧ armed.dec.framePos < armed.dcap ∧ (0x7F : Byte) ≠ 0x7E ∧ (0x7C : Byte) ≠ 0x7D ∧
      armed.dec.inEscape = false) := by decide

/-- A decoder about to see the closing FLAG of the empty payload with the given checksum bytes. -/
def closing (l h : Byte) : State := withDec ⟨3, false, 0, 0, [(0, 0x7E), (1, l), (2, h)], []⟩

theorem closing_holds (l h : Byte) : (closing l h).dec.abuf.holds 1 ([] ++ [l, h]) := by
  rw [List.nil_append, Memory.holds_cons, Memory.holds_cons]
  exact ⟨rfl, rfl, Memory.holds_nil _ _⟩

/-- FeedAcceptsMatchingFrame, at the smallest frame. -/
theorem witness_feed_accepts :
    ∃ l h, (closing l h).dec.framePos = ([] : List Byte).length + 3 ∧ (closing l h).dec.framePos ≤ (closing l h).dcap ∧
      ((closing l h).dec.abuf.read 0).isSome = true ∧ (closing l h).dec.abuf.holds 1 ([] ++ [l, h]) ∧
      Config.ck [] = assemble h l :=
  ⟨loByte (Config.ck []), hiByte (Config.ck []), rfl, (by decide : 3 ≤ 12), rfl, closing_holds _ _,
    (assemble_hiByte_loByte _).symm⟩

/-- FeedDropsMismatchedFrame: the low byte of the checksum is off by one bit. -/
theorem witness_feed_mismatch :
    ∃ l h, (closing l h).dec.framePos = ([] : List Byte).length + 3 ∧ (closing l h).dec.framePos ≤ (closing l h).dcap ∧
      (closing l h).dec.abuf.holds 1 ([] ++ [l, h]) ∧ Config.ck [] ≠ assemble h l := by
  refine ⟨loByte (Config.ck []) ^^^ 1, hiByte (Config.ck []), rfl, (by decide : 3 ≤ 12), closing_holds _ _, fun h => ?_⟩
  have h₁ : loByte (Config.ck []) = loByte (Config.ck []) ^^^ 1 := by
    conv => lhs; rw [h, loByte_assemble]
  revert h₁
  generalize loByte (Config.ck []) = b
  revert b
  decide

/-- FeedFrame: a byte that stores, and one that does not move the cursor on. -/
theorem witness_feed_frame :
    (∃ t, exec (.decFeed 0x41) busy = .next t ∧ t.report.result = .frameComplete false) ∧
    ∃ t, exec (.decFeed 0x41) between = .next t ∧ t.dec.framePos ≠ between.dec.framePos + 1 :=
  ⟨⟨_, rfl, rfl⟩, _, rfl, by decide⟩

/-- WireSymbolsFeedTheirByte, EscPairIsTwoFeeds, SynchronisingWord: `busy` and a DATA byte. -/
theorem witness_wire_symbols : CodecInv busy ∧ dataWf 0x7F = true := ⟨witness_inv_busy, by decide⟩

/-- EscPairStoresXoredByte: just after the opening FLAG, and at the last free cell with an ESC as second byte. -/
theorem witness_escpair :
    (1 ≤ armed.dec.framePos ∧ armed.dec.framePos < armed.dcap ∧ armed.dec.inEscape = false ∧ (0x5E : Byte) ≠ 0x7E) ∧
    (1 ≤ 11 ∧ 11 < (withDec ⟨11, false, 0, 0, [], []⟩).dcap ∧ (0x7D : Byte) ≠ 0x7E) := by decide

/-! ### The drains -/

/-- ReadOneTakesTheOldestByte. -/
theorem witness_read_one : 0 < halfDrained.dec.availableLen ∧ halfDrained.dec.readPos < halfDrained.dcap ∧
    halfDrained.ready.read halfDrained.dec.readPos = some 0x06 := by decide
/-- ReadOneEmptyReturnsZero. -/
theorem witness_read_one_empty : (small 3 3).dec.availableLen = 0 := by decide

/-- ReadManyCopiesAndAdvances: both causes of the early return; a clipped drain, and an empty one. -/
theorem witness_read_many :
    (0 = 0 ∨ true = false) ∧ (5 = 0 ∨ false = false) ∧
    (([0x06, 0x07, 0x08, 0x09, 0x0A] : List Byte).length = min 1000 halfDrained.dec.availableLen ∧
      halfDrained.ready.holds halfDrained.dec.readPos [0x06, 0x07, 0x08, 0x09, 0x0A] ∧
      halfDrained.dec.readPos + 5 ≤ halfDrained.dcap) ∧
    (([] : List Byte).length = min 1 (small 3 3).dec.availableLen ∧ (small 3 3).ready.holds 0 [] ∧
      (small 3 3).dec.readPos + 0 ≤ (small 3 3).dcap) := by decide

/-- ReadManyEqualsRepeatedReadOne. -/
theorem witness_read_many_of_busy : CodecInv busy ∧ 0 < 1 ∧ 1 ≤ busy.dec.availableLen :=
  ⟨witness_inv_busy, by decide, by decide⟩

/-- DecDataLooksAhead: the last byte of the window, and the first index past it. -/
theorem witness_decData :
    (4 < halfDrained.dec.availableLen ∧ halfDrained.dec.readPos + 4 < halfDrained.dcap ∧
      halfDrained.ready.read (halfDrained.dec.readPos + 4) = some 0x0A) ∧ halfDrained.dec.availableLen ≤ 5 := by decide

/-- DrainsKeepFrameInProgressAndSum: a drain that takes bytes, during a frame in progress. -/
theorem witness_drain : (Instr.decReadn true 1).isDrain = true ∧
    ∃ t, exec (.decReadn true 1) busy = .next t ∧ t.dec.availableLen = 0 := ⟨rfl, _, rfl, rfl⟩

/-! ### Encodings and the step -/

/-- DecodeOfEncodeIsTheOperation. -/
theorem witness_wellFormed : (Instr.encWrite true 2 [0x7E, 0x7D]).wellFormed = true ∧
    (Instr.data 0x7F).wellFormed = true := by decide
/-- EncodeOfDecodeIsTheRequest. -/
theorem witness_decodes : decode (.wire 0x7D [0x7D]) = .ok (.escpair 0x7D, []) ∧
    decode (.ckPort 0b00#2 []) = .ok (.ckReset, []) ∧ decode (.hostOp 0b1110#4 [.nat 0]) = .ok (.decData 0, []) := by
  decide
/-- UnassignedCodesAreRefused: the first and the last of the codes. -/
theorem witness_unassigned : (0b0100#4 = 0b0100#4 ∨ (0b0100#4 : BitVec 4) = 0b1111#4) ∧
    ((0b1111#4 : BitVec 4) = 0b0111#4 ∨ 0b1111#4 = 0b1111#4) := by decide

/-- StepRunsTheOldestRequest: a request that decodes as a whole, one that leaves a byte, one that does not decode,
and none. -/
theorem witness_step :
    decode (.wire 0x7E [0x41]) = .ok (.flag, [.wire 0x41 []]) ∧
    ((busy.withFetchWord 8 0x7E).pending = [.wire 0x7E []] ∧ decode (.wire 0x7E []) = .ok (.flag, [])) ∧
    ((busy.withFetchWord 4 4).pending = [.hostOp 4 []] ∧
      decode (.hostOp 4 []) = .error .unassignedHostOp) ∧ busy.pending = [] := by decide

/-! ### Laws over every operation -/

/-- ViewsChangeNothing. -/
theorem witness_view : (Instr.decData 0).isView = true ∧ ∃ t, exec (.decData 0) busy = .next t := ⟨rfl, _, rfl⟩

/-- EncoderAndDecoderAreIndependent and ParametersAreFixed: an operation of each side. -/
theorem witness_independent :
    (Instr.encReset.isEnc = true ∧ ∃ t, exec .encReset busy = .next t) ∧
    (Instr.decReset.isDec = true ∧ ∃ t, exec .decReset busy = .next t) := ⟨⟨rfl, _, rfl⟩, rfl, _, rfl⟩

/-- DecoderCannotSeeTheEncoder: two states that differ in the encoder alone. -/
theorem witness_noninterference :
    (Instr.decFeed 0x41).isDec = true ∧ busy.dec = ({ busy with enc := ⟨5, [0x01], []⟩ } : State).dec ∧
    busy.params = ({ busy with enc := ⟨5, [0x01], []⟩ } : State).params ∧
    ∃ t, exec (.decFeed 0x41) busy = .next t := ⟨rfl, rfl, rfl, _, rfl⟩

/-- EveryStepKeepsInv, EveryStepKeepsReadyFrame, NoReadBeforeWrite: a step that runs a request. -/
theorem witness_invariant_step :
    CodecInv (busy.withFetchWord 8 0x7D) ∧ ReadyFrameInv (busy.withFetchWord 8 0x7D) ∧
    ∃ t, step (busy.withFetchWord 8 0x7D) = .next t ∧ t.dec.framePos = 4 :=
  ⟨⟨encInv_small_dec busy.dec |> fun h => ⟨h.fits, h.bound, h.frame⟩,
      witness_inv_busy.dec |> fun h => ⟨h.fitsA, h.fitsR, h.bound, h.idle, h.head, h.taken, h.avail, h.tail, h.cursor,
        h.undrained⟩⟩,
    witness_readyFrame_busy, _, rfl, rfl⟩

/-- OnlyOutsideViewsAndMisfitWritesStop: its hypothesis, and an operation for the last of its cases. -/
theorem witness_only_views_and_writes_stop :
    CodecInv busy ∧ 0 < 3 ∧ 3 ≤ busy.params.encP ∧ ([0x01] : List Byte).length ≠ 3 :=
  ⟨witness_inv_busy, by decide, by decide, by decide⟩

/-- RoundTrip and LoopbackDeliversThePayload: between frames and armed, the longest payload that fits both. -/
theorem witness_round_trip :
    CodecInv between ∧ between.dec.framePos = 0 ∧
    CodecInv armed ∧ (armed.dec.framePos = 1 ∧ armed.dec.inEscape = false) ∧
    ([1, 2, 3, 4, 5, 6, 7, 8, 0x7E] : List Byte).length + 3 ≤ between.dcap ∧
    0 < ([0x7E, 0x7D, 0x41] : List Byte).length ∧ ([0x7E, 0x7D, 0x41] : List Byte).length ≤ between.params.encP ∧
    ([0x7E, 0x7D, 0x41] : List Byte).length + 3 ≤ armed.dcap :=
  ⟨witness_inv_between, by decide, witness_inv_armed, by decide, by decide, by decide, by decide, by decide⟩

/-- NoiseLeavesIdleDecoderAlone: noise with an ESC in it. -/
theorem witness_noise : between.dec.framePos = 0 ∧ ∀ b ∈ ([0x7D, 0x00, 0xFF] : List Byte), b ≠ 0x7E := by decide

/-- PendingEscapeSurvivesFlags. -/
theorem witness_pending_escape :
    (withDec ⟨1, true, 0, 0, [(0, 0x7E)], []⟩).dec.framePos = 1 ∧
    (withDec ⟨1, true, 0, 0, [(0, 0x7E)], []⟩).dec.inEscape = true ∧ (0x7D : Byte) ≠ 0x7E := by decide

end Sys2Proof.Tests
end

section
/-! PROOF. DET on every byte (spec/40_detector.md): what each comparator, class and transform answers, once each,
and the statement assembled from them. The two reserved values are written by their names, as in Laws. -/

namespace Sys2Proof.Machine

theorem flag_ne_esc : Config.flag ≠ Config.esc := by decide

@[simp] theorem detFlag_iff {b : Byte} : detFlag b = true ↔ b = Config.flag := beq_iff_eq

@[simp] theorem detEsc_iff {b : Byte} : detEsc b = true ↔ b = Config.esc := beq_iff_eq

theorem detRsvd_iff {b : Byte} : detRsvd b = true ↔ b = Config.flag ∨ b = Config.esc := by
  rw [detRsvd, Bool.or_eq_true, detFlag_iff, detEsc_iff]

/-- The comparators exclude each other, the two reserved values being different (R100, R101). -/
theorem detFlag_and_detEsc (b : Byte) : (detFlag b && detEsc b) = false := by
  rw [Bool.and_eq_false_imp, detFlag_iff]
  rintro rfl
  exact beq_eq_false_iff_ne.2 flag_ne_esc

/-- R102's three-way choice, on the values it tests. -/
theorem classify_cases (b : Byte) :
    (b = Config.flag ∧ classify b = .flag) ∨ (b = Config.esc ∧ classify b = .esc) ∨
      ((b ≠ Config.flag ∧ b ≠ Config.esc) ∧ classify b = .data) := by
  by_cases hf : b = Config.flag
  · exact .inl ⟨hf, by simp [classify, hf]⟩
  · by_cases he : b = Config.esc
    · exact .inr (.inl ⟨he, by simp [classify, he, flag_ne_esc.symm]⟩)
    · exact .inr (.inr ⟨⟨hf, he⟩, by simp [classify, hf, he]⟩)

/-- Each class is the class of its own bytes and of no others. -/
theorem classify_iff (b : Byte) :
    (classify b = .flag ↔ b = Config.flag) ∧ (classify b = .esc ↔ b = Config.esc) ∧
      (classify b = .data ↔ b ≠ Config.flag ∧ b ≠ Config.esc) := by
  obtain ⟨rfl, hc⟩ | ⟨rfl, hc⟩ | ⟨⟨hf, he⟩, hc⟩ := classify_cases b
  · simp [hc, flag_ne_esc]
  · simp [hc, flag_ne_esc.symm]
  · simp [hc, hf, he]

/-- The transform is its own inverse (R103). -/
@[simp] theorem xform_xform (b : Byte) : xform (xform b) = b := by
  rw [xform, xform, BitVec.xor_assoc, BitVec.xor_self, BitVec.xor_zero]

/-- Settles O17: the comparators test one value each, the class follows from them, and the transform undoes
itself. -/
theorem detectorOnEveryByte : Obligations.DetectorOnEveryByte := by
  intro b
  obtain ⟨hflag, hesc, hdata⟩ := classify_iff b
  exact ⟨detFlag_iff, detEsc_iff, detFlag_and_detEsc b, detRsvd_iff, hflag, hesc, hdata, rfl, xform_xform b⟩

end Sys2Proof.Machine
end

section
/-! PROOF. `ENC_WRITE` (spec/42_encoder.md): what the instruction does when it is rejected and when it is accepted,
once each from the laws of `encWriteWith`, and the two statements assembled from them. -/

namespace Sys2Proof.Machine

/-- R123's three causes of a rejection. -/
theorem writeRejected_eq_true {srcOk : Bool} {length : Nat} {s : State} :
    writeRejected srcOk length s = true ↔ srcOk = false ∨ length = 0 ∨ s.params.encP < length := by
  simp [writeRejected, or_assoc]

theorem exec_encWrite (srcOk : Bool) (length : Nat) (pl : List Byte) (s : State) :
    exec (.encWrite srcOk length pl) s = encWriteWith Config.ck srcOk length pl s := rfl

/-- A rejected `ENC_WRITE`, with its whole next state (R123). -/
theorem exec_encWrite_of_rejected {srcOk : Bool} {length : Nat} (pl : List Byte) {s : State}
    (hr : writeRejected srcOk length s = true) :
    exec (.encWrite srcOk length pl) s = .next { s with report := ⟨.count 0, [.encReject], []⟩ } := by
  rw [exec_encWrite, encWriteWith, if_pos hr]
  rfl

/-- An accepted `ENC_WRITE` answers, with the frame emitted from cell 0 on (R122, R124). -/
theorem exec_encWrite_of_accepted {length : Nat} {pl : List Byte} {s : State}
    (h₀ : 0 < length) (h₁ : length ≤ s.params.encP) (hl : pl.length = length) :
    ∃ t, exec (.encWrite true length pl) s = .next t ∧
      Emitted (frameOf Config.ck pl) { s with enc := { s.enc with framePos := 0 } } t ∧
      t.enc.ckAcc = pl ∧ t.report = ⟨.count length, [], .ckReset :: loopAccesses Config.ck [] 0 pl⟩ := by
  have hr := writeRejected_eq_false.2 ⟨rfl, h₀, h₁⟩
  obtain ⟨t, ht⟩ := encWriteWith_completes (ck := Config.ck) hr hl
  exact ⟨t, ht, (encWriteWith_eq_next hr ht).2⟩

/-- Settles O5: the emission starts at cell 0, so it ends at the frame's length, holds the frame from cell 0 and
touches no cell above. -/
theorem encWriteLeavesTheFrame : Obligations.EncWriteLeavesTheFrame := by
  intro s length pl h₀ h₁ hl
  obtain ⟨t, ht, e, hacc, hrep⟩ := exec_encWrite_of_accepted h₀ h₁ hl
  have hpos : t.enc.framePos = (frameOf Config.ck pl).length := by simpa using e.framePos
  have habove : ∀ a, t.enc.framePos ≤ a → t.enc.ebuf.read a = s.enc.ebuf.read a :=
    fun a ha => e.above a (by simpa [hpos] using ha)
  exact ⟨t, ht, hpos, e.holds, habove, hacc, by simp [hrep], by simp [hrep], by simp [hrep]⟩

/-- Settles O4: each of the three causes rejects, and `length = ENC_P` meets the bound of an accepted write. -/
theorem encWriteRejectedChangesNothing : Obligations.EncWriteRejectedChangesNothing := by
  constructor
  · intro s srcOk length pl h
    exact exec_encWrite_of_rejected pl (writeRejected_eq_true.2 h)
  · intro s pl h₀ hl
    obtain ⟨t, ht, -, -, hrep⟩ := exec_encWrite_of_accepted h₀ hl.le rfl
    exact ⟨t, ht, by simp [hrep]⟩

end Sys2Proof.Machine
end

section
/-! PROOF. `DEC_FEED`, row by row (spec/43_decoder_feed.md R145): each row of the transition table is what the byte
does whenever the row's condition holds, the converse of the law that lists the rows. A byte then does exactly what
one row says, and the statements are read off their rows. -/

namespace Sys2Proof.Machine

theorem detFlag_eq_false {b : Byte} : detFlag b = false ↔ b ≠ Config.flag := beq_eq_false_iff_ne

theorem detEsc_eq_false {b : Byte} : detEsc b = false ↔ b ≠ Config.esc := beq_eq_false_iff_ne

theorem accumulate_of_lt (v : Byte) {s : State} (h : s.dec.framePos < s.dcap) :
    accumulate v s = .next (stored v s) := accumulate_eq_next.2 ⟨h, rfl⟩

/-! ## Validation -/

/-- `VALIDATE(f)` over a closing frame reads the payload and the two checksum bytes and compares (R155). -/
theorem validate_of_closing {ck : Checksum} {f : Nat} {s : State} {p : List Byte} {l h : Byte}
    (hc : Closing f s p l h) (hd : f ≤ s.dcap) :
    validate ck f s = if ck p = assemble h l then acceptFrame f (ckComputeCall ck p s)
      else .next (decFail .decBadsum (ckComputeCall ck p s), false) := by
  obtain ⟨rfl, hheld⟩ := hc
  obtain ⟨hp, hsum⟩ := Memory.holds_append.1 hheld
  obtain ⟨hl, hsum⟩ := Memory.holds_cons.1 hsum
  obtain ⟨hh, -⟩ := Memory.holds_cons.1 hsum
  have hpay : loadRange .abuf s.dcap s.dec.abuf Config.headerLen (payloadLen (p.length + 3)) = .next p :=
    loadRange_eq_next.2 ⟨by rw [payloadLen_eq]; rfl, hp, .inr (by rw [payloadLen_eq, Config.headerLen]; omega)⟩
  have hhi : loadCell .abuf s.dcap s.dec.abuf (p.length + 3 - 1) = .next h :=
    loadCell_eq_next.2 ⟨by omega, by rwa [show p.length + 3 - 1 = 1 + p.length + 1 by omega]⟩
  have hlo : loadCell .abuf s.dcap s.dec.abuf (p.length + 3 - 2) = .next l :=
    loadCell_eq_next.2 ⟨by omega, by rwa [show p.length + 3 - 2 = 1 + p.length by omega]⟩
  rw [validate, hpay, andThen_next, hhi, andThen_next, hlo, andThen_next]

theorem acceptFrame_of_published {f : Nat} {m : Memory} {s : State} (h : publishedBuffer f s = .next m) :
    acceptFrame f s = .next (accepted f m s, true) := by
  rw [acceptFrame, h, andThen_next, payloadLen_eq]
  rfl

/-! ## The rows -/

/-- A FLAG that finds at least the threshold of stored bytes validates them (R149). -/
theorem feed_validates {ck : Checksum} {b : Byte} {s : State} (h₃ : 3 ≤ s.dec.framePos) (hb : detFlag b = true) :
    feed ck b s = validate ck s.dec.framePos s := by
  rw [feed, if_neg (by omega), if_pos hb, if_neg (by omega), if_pos (show minFramePos ≤ _ from h₃)]

/-- The arm of a row is the one its condition selects (R143). -/
theorem feed_of_case {ck : Checksum} {b : Byte} {s t : State} {r : Bool} (h : FeedCase ck b s t r) :
    feed ck b s = .next (t, r) := by
  cases h with
  | opens h₀ hb =>
    rw [feed, if_pos h₀, if_pos hb, accumulate_of_lt _ (by have := s.dcap_ge; omega), andThen_next]
  | ignoresNoise h₀ hb => simp [feed, h₀, hb]
  | ignoresFlag h₁ hb => simp [feed, h₁, hb]
  | accepts p l h m h₃ hd hb hc he hm =>
    rw [feed_validates h₃ hb, validate_of_closing hc hd, if_pos he]
    exact acceptFrame_of_published hm
  | rejects p l h h₃ hd hb hc hne => rw [feed_validates h₃ hb, validate_of_closing hc hd, if_neg hne]
  | tooShort h₂ hb => simp [feed, h₂, hb, minFramePos, Config.headerLen, Config.footerLen]
  | escapes h₀ hb he hin => simp [feed, h₀.ne', hb, he, hin]
  | overflows h₀ hf hb he => simp [feed, h₀.ne', hb, he, State.bufferFull, hf]
  | unescapes h₀ hf hb hin =>
    simp [feed, h₀.ne', hb, hin, State.bufferFull, Nat.not_le.2 hf, accumulate_of_lt _ hf]
  | stores h₀ hf hb he hin =>
    simp [feed, h₀.ne', hb, he, hin, State.bufferFull, Nat.not_le.2 hf, accumulate_of_lt _ hf]

theorem feed_eq_next_iff {ck : Checksum} {b : Byte} {s t : State} {r : Bool} :
    feed ck b s = .next (t, r) ↔ FeedCase ck b s t r := ⟨feed_cases, feed_of_case⟩

/-- `DEC_FEED` as an instruction takes one row of the table and answers with the row's `frame_complete` (R142). -/
theorem exec_decFeed_eq_next {b : Byte} {s t : State} :
    exec (.decFeed b) s = .next t ↔
      ∃ u r, FeedCase Config.ck b s.fresh u r ∧ t = u.answer (.frameComplete r) := by
  simp only [← feed_eq_next_iff]
  exact decFeedWith_eq_next

theorem exec_decFeed_of_case {b : Byte} {s t : State} {r : Bool} (h : FeedCase Config.ck b s.fresh t r) :
    exec (.decFeed b) s = .next (t.answer (.frameComplete r)) := exec_decFeed_eq_next.2 ⟨t, r, h, rfl⟩

/-! ## What no row changes -/

namespace FeedCase

variable {ck : Checksum} {b : Byte} {s t : State} {r : Bool}

theorem enc_eq (h : FeedCase ck b s t r) : t.enc = s.enc := by cases h <;> rfl

theorem params_eq (h : FeedCase ck b s t r) : t.params = s.params := by cases h <;> rfl

theorem pending_eq (h : FeedCase ck b s t r) : t.pending = s.pending := by cases h <;> rfl

/-- Only T4's match publishes, and it alone answers true (R161). -/
theorem ready_side_eq (h : FeedCase ck b s t false) :
    t.dec.rbuf = s.dec.rbuf ∧ t.dec.readPos = s.dec.readPos ∧ t.dec.availableLen = s.dec.availableLen := by
  cases h <;> exact ⟨rfl, rfl, rfl⟩

/-- A row stores nothing, or one byte at the cursor, which it then moves on (R61 a). -/
theorem abuf_kept_or_stored (h : FeedCase ck b s t r) :
    t.dec.abuf = s.dec.abuf ∨
      t.dec.framePos = s.dec.framePos + 1 ∧ ∃ v, t.dec.abuf = s.dec.abuf.write s.dec.framePos v := by
  cases h with
  | opens | stores => exact .inr ⟨rfl, b, rfl⟩
  | unescapes => exact .inr ⟨rfl, xform b, rfl⟩
  | ignoresNoise | ignoresFlag | accepts | rejects | tooShort | escapes | overflows => exact .inl rfl

end FeedCase

/-! ## The statements -/

/-- Settles O28: the stored bytes close a frame, and the comparison fails. -/
theorem feedDropsMismatchedFrame : Obligations.FeedDropsMismatchedFrame := by
  intro s p l h hf hd hheld hne
  exact exec_decFeed_of_case (.rejects p l h (hf ▸ Nat.le_add_left 3 _) hd rfl ⟨hf.symm, hheld⟩ hne)

/-- Settles O30: no row touches anything outside the decoder, a row that answers false publishes nothing, and a row
that stores does so at the cursor and moves it on. -/
theorem feedFrame : Obligations.FeedFrame := by
  intro s t b h
  obtain ⟨u, r, hc, rfl⟩ := exec_decFeed_eq_next.1 h
  refine ⟨hc.enc_eq, hc.params_eq, hc.pending_eq, fun hr => ?_, ?_⟩
  · obtain rfl : r = false := by simpa using hr
    exact hc.ready_side_eq
  · obtain hkept | ⟨hpos, v, hstored⟩ := hc.abuf_kept_or_stored
    · exact ⟨fun a _ => congrArg (·.read a) hkept, fun _ a => congrArg (·.read a) hkept⟩
    · refine ⟨fun a ha => ?_, fun hstay => absurd hpos hstay⟩
      exact (congrArg (·.read a) hstored).trans (Memory.read_write_other _ v ha)

/-- Settles O19: row T1, stored at the cursor, which is 0; the flag is false in every Idle state of the invariant. -/
theorem feedFlagOpensFrame : Obligations.FeedFlagOpensFrame := by
  intro s h₀
  refine ⟨?_, fun hinv => hinv.dec.idle h₀⟩
  rw [exec_decFeed_of_case (.opens h₀ rfl), stored, State.fresh_dec, h₀]
  rfl

/-- Settles O20: row T2. -/
theorem feedIgnoresNoiseWhileIdle : Obligations.FeedIgnoresNoiseWhileIdle :=
  fun _ _ h₀ hb => exec_decFeed_of_case (.ignoresNoise h₀ (detFlag_eq_false.2 hb))

/-- Settles O22: row T5. -/
theorem feedDropsShortFrame : Obligations.FeedDropsShortFrame :=
  fun _ h₂ => exec_decFeed_of_case (.tooShort h₂ rfl)

/-- Settles O25: row T7, the stored byte being the transform of the one fed. -/
theorem feedStoresUnescapedByte : Obligations.FeedStoresUnescapedByte :=
  fun _ _ h₀ hf hb hin => exec_decFeed_of_case (.unescapes h₀ hf (detFlag_eq_false.2 hb) hin)

/-- Settles O26: row T9. -/
theorem feedStoresPlainByte : Obligations.FeedStoresPlainByte :=
  fun _ _ h₀ hf hb he hin =>
    exec_decFeed_of_case (.stores h₀ hf (detFlag_eq_false.2 hb) (detEsc_eq_false.2 he) hin)

end Sys2Proof.Machine
end

section
/-! PROOF. `DEC_READ1` (spec/44_decoder_drain.md R172 to R174): what the instruction does on each side of its one
test, and the two statements, which are these two equations with the named updates of the state written out. -/

namespace Sys2Proof.Machine

theorem State.hasData_eq_true {s : State} : s.hasData = true ↔ 0 < s.dec.availableLen := decide_eq_true_iff

theorem State.hasData_eq_false {s : State} : s.hasData = false ↔ s.dec.availableLen = 0 := by
  rw [State.hasData, decide_eq_false_iff_not, Nat.not_lt, Nat.le_zero]

theorem exec_decRead1 (s : State) : exec .decRead1 s = execDecRead1 s := rfl

/-- With data available, the byte at the read cursor is delivered and consumed (R173). -/
theorem exec_decRead1_of_data {s : State} {v : Byte} (ha : s.hasData = true) (hv : readyCell s 0 = .next v) :
    exec .decRead1 s = .next ((s.fresh.consume 1).answer (.byte v)) := by
  rw [exec_decRead1, execDecRead1, if_pos ha, hv, andThen_next]

/-- With nothing available, the sentinel is delivered and the condition labelled (R174, R215). -/
theorem exec_decRead1_of_empty {s : State} (ha : s.hasData = false) :
    exec .decRead1 s = .next ((s.fresh.note .drainEmpty).answer (.byte 0x00)) := by
  rw [exec_decRead1, execDecRead1, ha, if_neg Bool.false_ne_true]

/-- Settles O35: the cell at the read cursor is inside the ready buffer and written, so the read answers it. -/
theorem readOneTakesTheOldestByte : Obligations.ReadOneTakesTheOldestByte := by
  intro s v ha hc hr
  have hv : readyCell s 0 = .next v := readyCell_eq_next.2 ⟨hc, hr⟩
  exact exec_decRead1_of_data (State.hasData_eq_true.2 ha) hv

/-- Settles O36: with a count of zero the test for data fails. -/
theorem readOneEmptyReturnsZero : Obligations.ReadOneEmptyReturnsZero :=
  fun _ h₀ => exec_decRead1_of_empty (State.hasData_eq_false.2 h₀)

end Sys2Proof.Machine
end

section
/-! PROOF. Requests (spec/30_encoding.md R73, R84 to R90): a request and the operation it selects determine each other,
the tables being read in both directions, and a step runs what the oldest request selects. -/

namespace Sys2Proof.Machine

/-! ## From the operation to the request and back -/

theorem wireSymbol_of_data {d : Byte} (hd : dataWf d = true) : wireSymbol d = .data d := by
  obtain ⟨hf, he⟩ := dataWf_eq.1 hd
  rw [wireSymbol, if_neg hf, if_neg he]

/-- Settles O41: every row of the tables reads back what it writes; only `DATA d` rests on its operand, which is no
reserved byte. -/
theorem decodeOfEncodeIsTheOperation : Obligations.DecodeOfEncodeIsTheOperation := by
  intro i hwf
  cases i with
  | data d => exact congrArg (fun j => Except.ok (j, [])) (wireSymbol_of_data hwf)
  | _ => rfl

/-! ## From the request to the operation and back -/

/-- The code and the operands of a HOST_OP request are those its operation is encoded with (R84). -/
theorem encode_of_decodeHostOp {op : BitVec 4} {args : List Arg} {i : Instr} (h : decodeHostOp op args = .ok i) :
    encode i = .hostOp op args := by
  unfold decodeHostOp at h
  split at h <;>
    simp only [noArgs_eq_ok, natArg_eq_ok, byteArg_eq_ok, readnArgs_eq_ok, writeArgs_eq_ok, reduceCtorEq] at h
  case h_2 => obtain ⟨ok, n, pl, rfl, rfl⟩ := h; rfl
  case h_10 => obtain ⟨ok, n, rfl, rfl⟩ := h; rfl
  case h_4 | h_6 | h_11 => obtain ⟨x, rfl, rfl⟩ := h; rfl
  all_goals obtain ⟨rfl, rfl⟩ := h; rfl

/-- The same for the checksum port (R89). -/
theorem encode_of_decodeCkPort {sel : BitVec 2} {args : List Arg} {i : Instr} (h : decodeCkPort sel args = .ok i) :
    encode i = .ckPort sel args := by
  unfold decodeCkPort at h
  split at h <;> simp only [noArgs_eq_ok, byteArg_eq_ok, bytesArg_eq_ok, reduceCtorEq] at h
  case h_1 => obtain ⟨rfl, rfl⟩ := h; rfl
  all_goals obtain ⟨x, rfl, rfl⟩ := h; rfl

theorem encode_wireSymbol (b : Byte) : encode (wireSymbol b) = .wire b [] := by
  obtain ⟨rfl, h⟩ | ⟨rfl, h⟩ | ⟨-, h⟩ := wireSymbol_cases b <;> rw [h] <;> rfl

theorem stillToArrive_eq_nil {bs : List Byte} : stillToArrive bs = [] ↔ bs = [] := by
  cases bs <;> simp [stillToArrive]

theorem wireBytes_stillToArrive (bs : List Byte) : (stillToArrive bs).flatMap Request.wireBytes = bs := by
  cases bs <;> simp [stillToArrive, Request.wireBytes]

/-- A stretch of wire bytes that is one whole symbol is the encoding of that symbol (R73). -/
theorem encode_of_decodeWire {first : Byte} {more : List Byte} {i : Instr} (h : decodeWire first more = (i, [])) :
    encode i = .wire first more := by
  obtain ⟨d, rest, rfl, rfl, hd⟩ | hd := decodeWire_cases first more
  all_goals
    obtain ⟨rfl, hleft⟩ := Prod.mk.inj (hd.symm.trans h)
    obtain rfl := stillToArrive_eq_nil.1 hleft
  · rfl
  · exact encode_wireSymbol first

/-- No wire byte is lost: the bytes of the symbol and those still to arrive are the stretch (R78). -/
theorem wireBytes_decodeWire (first : Byte) (more : List Byte) :
    (encode (decodeWire first more).1).wireBytes ++ (decodeWire first more).2.flatMap Request.wireBytes =
      first :: more := by
  obtain ⟨d, rest, rfl, rfl, hd⟩ | hd := decodeWire_cases first more <;> rw [hd, wireBytes_stillToArrive]
  · rfl
  · rw [encode_wireSymbol]; rfl

/-- Settles O42: by the format of the request, each format with its own table. -/
theorem encodeOfDecodeIsTheRequest : Obligations.EncodeOfDecodeIsTheRequest := by
  refine ⟨fun r i h => ?_, fun first more => ⟨_, _, rfl, wireBytes_decodeWire first more⟩⟩
  cases r with
  | hostOp op args => exact encode_of_decodeHostOp (decode_hostOp_eq_ok.1 h).1
  | ckPort sel args => exact encode_of_decodeCkPort (decode_ckPort_eq_ok.1 h).1
  | wire first more => exact encode_of_decodeWire (decode_wire_eq_ok.1 h)

/-- Settles O43: ten closed requests, each read from its table. -/
theorem writtenOutCodesDecode : Obligations.WrittenOutCodesDecode := by
  unfold Obligations.WrittenOutCodesDecode
  decide

/-! ## The step -/

theorem step_of_decode_eq_ok {s : State} {r : Request} {rest left : List Request} {i : Instr}
    (hp : s.pending = r :: rest) (hd : decode r = .ok (i, left)) :
    step s = exec i { s with pending := left ++ rest } := by simp [step, hp, hd]

theorem step_of_decode_eq_error {s : State} {r : Request} {rest : List Request} {e : DecodeError}
    (hp : s.pending = r :: rest) (hd : decode r = .error e) : step s = .refused (.badRequest e) := by
  simp [step, hp, hd]

theorem step_of_no_request {s : State} (hp : s.pending = []) : step s = .next s := by simp [step, hp]

/-- Settles O45: the three outcomes of the look at the queue. -/
theorem stepRunsTheOldestRequest : Obligations.StepRunsTheOldestRequest :=
  ⟨fun _ _ _ _ _ => step_of_decode_eq_ok, fun _ _ _ _ => step_of_decode_eq_error, fun _ => step_of_no_request⟩

theorem decodeHostOp_of_unassigned {op : BitVec 4} (args : List Arg)
    (h : op = 0b0100#4 ∨ op = 0b0101#4 ∨ op = 0b0110#4 ∨ op = 0b0111#4 ∨ op = 0b1111#4) :
    decode (.hostOp op args) = .error .unassignedHostOp := by
  rcases h with rfl | rfl | rfl | rfl | rfl <;> rfl

/-- Settles O44: no row of either table has the code, whatever the operands. -/
theorem unassignedCodesAreRefused : Obligations.UnassignedCodesAreRefused := by
  intro s rest args op h
  exact ⟨step_of_decode_eq_error rfl (decodeHostOp_of_unassigned args h), step_of_decode_eq_error rfl rfl⟩

/-- Everything a step can be: idle, the oldest request's operation, or a refusal (R16, R241). -/
theorem step_cases (s : State) :
    step s = .next s ∨ (∃ i q, step s = exec i { s with pending := q }) ∨
      ∃ e, step s = .refused (.badRequest e) := by
  cases hp : s.pending with
  | nil => exact .inl (step_of_no_request hp)
  | cons r rest =>
    cases hd : decode r with
    | error e => exact .inr (.inr ⟨e, step_of_decode_eq_error hp hd⟩)
    | ok d => exact .inr (.inl ⟨d.1, _, step_of_decode_eq_ok hp hd⟩)

end Sys2Proof.Machine
end

section
/-! PROOF. The operations that answer in one move: the resets, the checksum port, the sizes and the views, each with
its whole next state, and what the views have in common. -/

namespace Sys2Proof.Machine

/-! ## Reset -/

/-- Settles O1: the reset state is a literal, and its buffers list no cell. -/
theorem resetLeavesIdleAndUnwritten : Obligations.ResetLeavesIdleAndUnwritten :=
  ⟨rfl, rfl, rfl, rfl, rfl, rfl, fun i => ⟨Memory.read_nil i, Memory.read_nil i, Memory.read_nil i⟩⟩

/-- Settles O2: the cursor is cleared before the one call at the port. -/
theorem encResetClearsCursorAndChecksum : Obligations.EncResetClearsCursorAndChecksum := fun _ => rfl

/-- Settles O3: the four registers of the decoder are written and no buffer is. -/
theorem decResetClearsCursorsAndFlag : Obligations.DecResetClearsCursorsAndFlag := fun _ => rfl

/-! ## The checksum port -/

/-- Settles O13: R111's assignment and its record. -/
theorem ckResetEmptiesTheAccumulator : Obligations.CkResetEmptiesTheAccumulator := fun _ => rfl

/-- Settles O14: the value returned is that of the accumulator with the byte appended. -/
theorem ckUpdateFoldsOneByte : Obligations.CkUpdateFoldsOneByte := fun _ _ => rfl

/-- Settles O15: the value is of the operand alone. -/
theorem ckComputeIsStateless : Obligations.CkComputeIsStateless := fun _ _ => rfl

/-! ## The sizes -/

/-- Settles O10: the cursor is the result. -/
theorem encSizeReturnsTheCursor : Obligations.EncSizeReturnsTheCursor := fun _ => rfl

/-- Settles O34: both names present the one count. -/
theorem availAndSizeReturnTheCount : Obligations.AvailAndSizeReturnTheCount := fun _ => ⟨rfl, rfl⟩

/-! ## The views of one byte -/

/-- Inside the view `ENC_DATA` answers through the read of the cell (R131). -/
theorem exec_encData_eq_next {s t : State} {i : Nat} (hi : i < s.enc.framePos) :
    exec (.encData i) s = .next t ↔
      ∃ v, loadCell .ebuf s.ecap s.enc.ebuf i = .next v ∧ t = s.fresh.answer (.byte v) := by
  rw [show exec (.encData i) s = execEncData i s from rfl, execEncData, if_pos hi, andThen_eq_next]
  simp only [Host.Outcome.next.injEq, eq_comm]

theorem exec_encData_of_lt {s : State} {i : Nat} {v : Byte} (hi : i < s.enc.framePos)
    (hv : loadCell .ebuf s.ecap s.enc.ebuf i = .next v) :
    exec (.encData i) s = .next (s.fresh.answer (.byte v)) := (exec_encData_eq_next hi).2 ⟨v, hv, rfl⟩

theorem exec_encData_of_ge {s : State} {i : Nat} (hi : s.enc.framePos ≤ i) :
    exec (.encData i) s = .refused .outsideEncoderView := if_neg (Nat.not_lt.2 hi)

/-- Inside the window `DEC_DATA` answers through the read of the ready buffer (R177). -/
theorem exec_decData_eq_next {s t : State} {k : Nat} (hk : k < s.dec.availableLen) :
    exec (.decData k) s = .next t ↔ ∃ v, readyCell s k = .next v ∧ t = s.fresh.answer (.byte v) := by
  rw [show exec (.decData k) s = execDecData k s from rfl, execDecData, if_pos hk, andThen_eq_next]
  simp only [Host.Outcome.next.injEq, eq_comm]

theorem exec_decData_of_lt {s : State} {k : Nat} {v : Byte} (hk : k < s.dec.availableLen)
    (hv : readyCell s k = .next v) : exec (.decData k) s = .next (s.fresh.answer (.byte v)) :=
  (exec_decData_eq_next hk).2 ⟨v, hv, rfl⟩

theorem exec_decData_of_ge {s : State} {k : Nat} (hk : s.dec.availableLen ≤ k) :
    exec (.decData k) s = .refused .outsideDecoderView := if_neg (Nat.not_lt.2 hk)

/-- Settles O11: inside the view the cell is in range and written, outside it the test fails. -/
theorem encDataShowsTheView : Obligations.EncDataShowsTheView :=
  ⟨fun _ _ _ hi hc hv => exec_encData_of_lt hi (loadCell_eq_next.2 ⟨hc, hv⟩), fun _ _ hi => exec_encData_of_ge hi⟩

/-- Settles O39: inside the window the cell is in range and written, outside it the test fails. -/
theorem decDataLooksAhead : Obligations.DecDataLooksAhead :=
  ⟨fun _ _ _ hk hc hv => exec_decData_of_lt hk (readyCell_eq_next.2 ⟨hc, hv⟩), fun _ _ hk => exec_decData_of_ge hk⟩

/-! ## What the views have in common -/

/-- A view presents a result and does nothing else (R57). -/
theorem exec_view_eq_next {i : Instr} {s t : State} (hi : i.isView = true) (h : exec i s = .next t) :
    ∃ r, t = s.fresh.answer r := by
  cases i with
  | encSize | decAvail | decSize => cases h; exact ⟨_, rfl⟩
  | encData k =>
    rcases Nat.lt_or_ge k s.enc.framePos with hk | hk
    · obtain ⟨v, -, rfl⟩ := (exec_encData_eq_next hk).1 h
      exact ⟨_, rfl⟩
    · cases (exec_encData_of_ge hk).symm.trans h
  | decData k =>
    rcases Nat.lt_or_ge k s.dec.availableLen with hk | hk
    · obtain ⟨v, -, rfl⟩ := (exec_decData_eq_next hk).1 h
      exact ⟨_, rfl⟩
    · cases (exec_decData_of_ge hk).symm.trans h
  | _ => cases hi

/-- Settles O46: a result presented on a fresh report is all a view leaves. -/
theorem viewsChangeNothing : Obligations.ViewsChangeNothing := by
  intro i s t hi h
  obtain ⟨r, rfl⟩ := exec_view_eq_next hi h
  exact ⟨rfl, rfl, rfl, rfl, rfl, rfl⟩

end Sys2Proof.Machine
end

section
/-! PROOF. The payload side of DEC (spec/44_decoder_drain.md): `DEC_READN` on each side of its test, one `DEC_READN`
against as many `DEC_READ1`, and what every drain and view leaves alone. -/

namespace Sys2Proof.Machine

/-! ## Sequences of operations -/

/-- A sequence answers through its first operation and the rest. -/
theorem execSeq_cons_eq_next {i : Instr} {is : List Instr} {s u : State} {rs : List Result} :
    execSeq (i :: is) s = .next (u, rs) ↔
      ∃ t qs, exec i s = .next t ∧ execSeq is t = .next (u, qs) ∧ rs = t.report.result :: qs := by
  rw [execSeq, andThen_eq_next]
  constructor
  · rintro ⟨t, ht, h⟩
    obtain ⟨⟨v, qs⟩, hv, h⟩ := andThen_eq_next.1 h
    cases h
    exact ⟨t, qs, ht, hv, rfl⟩
  · rintro ⟨t, qs, ht, hv, rfl⟩
    exact ⟨t, ht, by rw [hv, andThen_next]⟩

theorem execSeq_cons_of_next {i : Instr} {is : List Instr} {s t u : State} {rs : List Result}
    (hi : exec i s = .next t) (his : execSeq is t = .next (u, rs)) :
    execSeq (i :: is) s = .next (u, t.report.result :: rs) := execSeq_cons_eq_next.2 ⟨t, rs, hi, his, rfl⟩

/-! ## DEC_READ1 -/

/-- With data available `DEC_READ1` answers through the read of the ready buffer (R173). -/
theorem exec_decRead1_eq_next {s t : State} (ha : s.hasData = true) :
    exec .decRead1 s = .next t ↔ ∃ v, readyCell s 0 = .next v ∧ t = (s.fresh.consume 1).answer (.byte v) := by
  rw [exec_decRead1, execDecRead1, if_pos ha, andThen_eq_next]
  simp only [Host.Outcome.next.injEq, eq_comm]

/-! ## DEC_READN -/

theorem exec_decReadn (dstOk : Bool) (n : Nat) (s : State) : exec (.decReadn dstOk n) s = execDecReadn dstOk n s := rfl

theorem drainRefusesArg_eq_true {dstOk : Bool} {n : Nat} :
    drainRefusesArg dstOk n = true ↔ n = 0 ∨ dstOk = false := by simp [drainRefusesArg]

/-- Without a destination or room nothing is delivered (R175, R216). -/
theorem exec_decReadn_of_noarg {dstOk : Bool} {n : Nat} (s : State) (h : n = 0 ∨ dstOk = false) :
    exec (.decReadn dstOk n) s = .next ((s.fresh.note .drainNoarg).answer (.copied 0 [])) := by
  rw [exec_decReadn, execDecReadn, if_pos (drainRefusesArg_eq_true.2 h)]

/-- The report `DEC_READN` starts its loop with: the label of an empty drain (R215; log 17). -/
def drainStart (s : State) : State := if s.hasData then s.fresh else s.fresh.note .drainEmpty

theorem exec_decReadn_of_arg {n : Nat} (s : State) (h : 0 < n) :
    exec (.decReadn true n) s = drain (min n s.dec.availableLen) (drainStart s) := by
  have hargs : ¬ (n = 0 ∨ true = false) := by simp [h.ne']
  rw [exec_decReadn, execDecReadn, if_neg (mt drainRefusesArg_eq_true.1 hargs)]
  rfl

/-- The start of the loop differs from the state in the report alone. -/
theorem drainStart_eq (s : State) :
    drainStart s = { s with report := ⟨.unit, if s.dec.availableLen = 0 then [.drainEmpty] else [], []⟩ } := by
  rcases Nat.eq_zero_or_pos s.dec.availableLen with h₀ | h₀
  · rw [drainStart, State.hasData_eq_false.2 h₀, if_pos h₀]; rfl
  · rw [drainStart, State.hasData_eq_true.2 h₀, if_neg h₀.ne']; rfl

/-- The outward writes from offset `k` on are the loop's of R175. -/
theorem writesFrom_eq (k : Nat) (out : List Byte) :
    writesFrom k out = (List.range out.length).map fun j => .memWrite (k + j) (out.getD j 0) := by
  induction out generalizing k with
  | nil => rfl
  | cons v vs ih =>
    rw [writesFrom, ih, List.length_cons, List.range_succ_eq_map]
    simp only [List.map_cons, List.map_map, Function.comp_def, List.getD_cons_zero, List.getD_cons_succ, Nat.add_zero,
      Nat.succ_eq_add_one, Nat.add_assoc, Nat.add_comm 1]

theorem writesFrom_zero (out : List Byte) : writesFrom 0 out = drainAccesses out := by
  simp [writesFrom_eq, drainAccesses]

/-- The loop delivers what the ready buffer holds from the read cursor on. -/
theorem drain_of_holds {s : State} {out : List Byte} (hh : s.ready.holds s.dec.readPos out)
    (hc : s.dec.readPos + out.length ≤ s.dcap) :
    drain out.length s = .next { s with
      dec := { s.dec with
        readPos := s.dec.readPos + out.length, availableLen := s.dec.availableLen - out.length }
      report := { s.report with
        result := .copied out.length out, bus := s.report.bus ++ drainAccesses out } } := by
  have hr : readyCells s out.length = .next out := readyCells_eq_next.2 ⟨rfl, hh, .inr hc⟩
  rw [drain, hr, andThen_next, memWrites_eq, writesFrom_zero]
  rfl

/-- `DEC_READN` with a destination and room, with its whole next state (R175). -/
theorem exec_decReadn_of_holds {s : State} {n : Nat} {out : List Byte} (hn : 0 < n)
    (hl : out.length = min n s.dec.availableLen) (hh : s.ready.holds s.dec.readPos out)
    (hc : s.dec.readPos + out.length ≤ s.dcap) :
    exec (.decReadn true n) s = .next { s with
      dec := { s.dec with
        readPos := s.dec.readPos + out.length, availableLen := s.dec.availableLen - out.length }
      report := ⟨.copied out.length out, if s.dec.availableLen = 0 then [.drainEmpty] else [],
        drainAccesses out⟩ } := by
  rw [exec_decReadn_of_arg s hn, ← hl, drainStart_eq]
  exact drain_of_holds hh hc

/-- Settles O37: the two sides of the test on the operands. -/
theorem readManyCopiesAndAdvances : Obligations.ReadManyCopiesAndAdvances :=
  ⟨fun s _ _ h => exec_decReadn_of_noarg s h, fun _ _ _ => exec_decReadn_of_holds⟩

/-! ## One drain of `n` bytes and `n` drains of one byte -/

/-- As many single reads as the ready buffer holds bytes deliver them one by one (R173, R176). -/
theorem execSeq_decRead1_of_holds {s : State} {out : List Byte} (hh : s.ready.holds s.dec.readPos out)
    (ha : out.length ≤ s.dec.availableLen) (hc : s.dec.readPos + out.length ≤ s.dcap) :
    ∃ u, execSeq (List.replicate out.length .decRead1) s = .next (u, out.map .byte) ∧
      u.dec = (s.consume out.length).dec ∧ u.enc = s.enc := by
  induction out generalizing s with
  | nil => exact ⟨s, rfl, rfl, rfl⟩
  | cons v vs ih =>
    obtain ⟨hv, hvs⟩ := Memory.holds_cons.1 hh
    rw [List.length_cons] at ha hc
    have hd : s.hasData = true := State.hasData_eq_true.2 (by omega)
    have hread := exec_decRead1_of_data hd (readyCell_eq_next.2 ⟨by omega, hv⟩)
    obtain ⟨u, hu, hdec, henc⟩ := ih (s := (s.fresh.consume 1).answer (.byte v)) hvs
      (by simp; omega) (by change s.dec.readPos + 1 + vs.length ≤ s.dcap; omega)
    refine ⟨u, execSeq_cons_of_next hread hu, hdec.trans ?_, henc⟩
    simp [Nat.add_assoc, Nat.add_comm, Nat.sub_sub]

/-- In a state of the invariant any number of available bytes stands readable behind the read cursor (R194, R204). -/
theorem DecInv.holds_ready {s : State} (h : DecInv s) {n : Nat} (hn : n ≤ s.dec.availableLen) :
    ∃ out : List Byte, out.length = n ∧ s.ready.holds s.dec.readPos out ∧ s.dec.readPos + out.length ≤ s.dcap := by
  have hw : s.ready.written s.dec.readPos n := Memory.written_sub h.undrained (Nat.le_refl _) (by omega)
  obtain ⟨out, hl, hh⟩ := Memory.holds_of_written hw
  have := h.tail
  exact ⟨out, hl, hh, by omega⟩

/-- Settles O38: both ways deliver the bytes that stand behind the read cursor, and move it by as many. -/
theorem readManyEqualsRepeatedReadOne : Obligations.ReadManyEqualsRepeatedReadOne := by
  intro s n hinv h₀ hn
  obtain ⟨out, rfl, hh, hc⟩ := hinv.dec.holds_ready hn
  obtain ⟨u, hu, hdec, henc⟩ := execSeq_decRead1_of_holds hh hn hc
  have hmany := exec_decReadn_of_holds h₀ (Nat.min_eq_left hn).symm hh hc
  exact ⟨_, u, out, hmany, rfl, rfl, hu, hdec, henc⟩

/-! ## What every drain and view leaves alone -/

/-- A drain or view takes some of the available bytes, none for a view, and presents a report: that is all it does
(R178). -/
theorem exec_drain_eq_next {i : Instr} {s t : State} (hi : i.isDrain = true) (h : exec i s = .next t) :
    ∃ n r, n ≤ s.dec.availableLen ∧ t = { s.consume n with report := r } := by
  have view : ∀ r, t = s.fresh.answer r →
      ∃ n r, n ≤ s.dec.availableLen ∧ t = { s.consume n with report := r } := by
    rintro r rfl
    exact ⟨0, _, Nat.zero_le _, rfl⟩
  cases i with
  | decAvail | decSize | decData => exact (exec_view_eq_next rfl h).elim view
  | decRead1 =>
    rcases Nat.eq_zero_or_pos s.dec.availableLen with h₀ | h₀
    · cases (exec_decRead1_of_empty (State.hasData_eq_false.2 h₀)).symm.trans h
      exact ⟨0, _, Nat.zero_le _, rfl⟩
    · obtain ⟨v, -, rfl⟩ := (exec_decRead1_eq_next (State.hasData_eq_true.2 h₀)).1 h
      exact ⟨1, _, h₀, rfl⟩
  | decReadn ok n =>
    by_cases hargs : n = 0 ∨ ok = false
    · cases (exec_decReadn_of_noarg s hargs).symm.trans h
      exact ⟨0, _, Nat.zero_le _, rfl⟩
    · obtain ⟨hn, hok⟩ := not_or.1 hargs
      obtain rfl := Bool.eq_true_of_not_eq_false hok
      rw [exec_decReadn_of_arg s (Nat.pos_of_ne_zero hn), drainStart_eq] at h
      obtain ⟨out, -, -, -, rfl⟩ := drain_eq_next h
      exact ⟨_, _, Nat.min_le_right _ _, rfl⟩
  | _ => cases hi

/-- Settles O40: taking `n` of the available bytes moves `n` from the count to the read cursor. -/
theorem drainsKeepFrameInProgressAndSum : Obligations.DrainsKeepFrameInProgressAndSum := by
  intro i s t hi h
  obtain ⟨n, r, hn, rfl⟩ := exec_drain_eq_next hi h
  have hsum : s.dec.readPos + n + (s.dec.availableLen - n) = s.dec.readPos + s.dec.availableLen := by omega
  exact ⟨rfl, rfl, rfl, rfl, rfl, hsum⟩

end Sys2Proof.Machine
end

section
/-! PROOF. The wire format (spec/30_encoding.md R71 to R74, R79): a frame is a FLAG, the stuffed payload and checksum,
and a FLAG; stuffing is undone by un-stuffing and lets no FLAG through. -/

namespace Sys2Proof.Machine

/-! ## A byte on the wire -/

theorem st_of_rsvd {b : Byte} (h : detRsvd b = true) : st b = [Config.esc, xform b] := if_pos h

theorem st_of_not_rsvd {b : Byte} (h : detRsvd b = false) : st b = [b] := if_neg (by simp [h])

theorem detRsvd_eq_false {b : Byte} : detRsvd b = false ↔ b ≠ Config.flag ∧ b ≠ Config.esc := by
  rw [detRsvd, Bool.or_eq_false_iff, detFlag_eq_false, detEsc_eq_false]

/-- The escaped forms of the two reserved bytes (R79): 5E and 5D, neither of them reserved. -/
theorem xform_of_rsvd {b : Byte} (h : detRsvd b = true) : xform b = 0x5E ∨ xform b = 0x5D := by
  rcases detRsvd_iff.1 h with rfl | rfl
  · exact .inl rfl
  · exact .inr rfl

theorem xform_ne_flag {b : Byte} (h : detRsvd b = true) : xform b ≠ Config.flag := by
  rcases xform_of_rsvd h with h | h <;> rw [h] <;> decide

/-! ## Stuffing -/

theorem stuff_append (p q : List Byte) : stuff (p ++ q) = stuff p ++ stuff q := by
  induction p with
  | nil => rfl
  | cons b bs ih => rw [List.cons_append, stuff, ih, stuff, List.append_assoc]

/-- What a frame carries between its delimiters, before stuffing: the payload and its checksum, low byte first
(R72). -/
def carried (ck : Checksum) (p : List Byte) : List Byte := p ++ [loByte (ck p), hiByte (ck p)]

@[simp] theorem length_carried (ck : Checksum) (p : List Byte) : (carried ck p).length = p.length + 2 := by
  simp [carried]

/-- A frame is what it carries, stuffed, between two FLAGs (R72). -/
theorem frameOf_eq (ck : Checksum) (p : List Byte) :
    frameOf ck p = Config.flag :: (stuff (carried ck p) ++ [Config.flag]) := by
  simp [frameOf, carried, stuff_append, stuff]

/-- No stuffed sequence has a FLAG in it (R79). -/
theorem flag_notMem_stuff (p : List Byte) : Config.flag ∉ stuff p := by
  induction p with
  | nil => simp [stuff]
  | cons b bs ih =>
    rw [stuff, List.mem_append, not_or]
    refine ⟨?_, ih⟩
    cases h : detRsvd b with
    | true => simp [st_of_rsvd h, flag_ne_esc, (xform_ne_flag h).symm]
    | false => simp [st_of_not_rsvd h, (detRsvd_eq_false.1 h).1.symm]

/-! ## Un-stuffing -/

theorem unstuff_esc_cons (d : Byte) (rest : List Byte) :
    unstuff (Config.esc :: d :: rest) = (unstuff rest).map (xform d :: ·) := rfl

theorem unstuff_cons_of_not_rsvd {b : Byte} (h : detRsvd b = false) (rest : List Byte) :
    unstuff (b :: rest) = (unstuff rest).map (b :: ·) := by
  cases rest with
  | nil => simp [unstuff, h]
  | cons d rest =>
    obtain ⟨hf, he⟩ := detRsvd_eq_false.1 h
    simp [unstuff, hf, he]

/-- Un-stuffing undoes stuffing (R79). -/
theorem unstuff_stuff (p : List Byte) : unstuff (stuff p) = some p := by
  induction p with
  | nil => rfl
  | cons b bs ih =>
    rw [stuff]
    cases h : detRsvd b with
    | true => simp [st_of_rsvd h, unstuff_esc_cons, ih]
    | false => simp [st_of_not_rsvd h, unstuff_cons_of_not_rsvd h, ih]

/-! ## An ESC and the byte after it -/

/-- Every ESC has an escaped form after it (R79). -/
def EscFollowed (bs : List Byte) : Prop :=
  ∀ i : Nat, bs[i]? = some Config.esc → bs[i + 1]? = some 0x5E ∨ bs[i + 1]? = some 0x5D

theorem EscFollowed.cons {b : Byte} {bs : List Byte} (hb : b ≠ Config.esc) (h : EscFollowed bs) :
    EscFollowed (b :: bs)
  | 0, hi => absurd (Option.some.inj hi) hb
  | i + 1, hi => h i hi

theorem EscFollowed.pair {d : Byte} {bs : List Byte} (hd : d = 0x5E ∨ d = 0x5D) (h : EscFollowed bs) :
    EscFollowed (Config.esc :: d :: bs)
  | 0, _ => by simpa using hd
  | i + 1, hi => h.cons (by rcases hd with rfl | rfl <;> decide) i hi

/-- Stuffed bytes put in front keep every ESC followed by an escaped form. -/
theorem EscFollowed.stuff_append {bs : List Byte} (p : List Byte) (h : EscFollowed bs) :
    EscFollowed (stuff p ++ bs) := by
  induction p with
  | nil => exact h
  | cons b p ih =>
    rw [stuff, List.append_assoc]
    cases hb : detRsvd b with
    | true => rw [st_of_rsvd hb]; exact ih.pair (xform_of_rsvd hb)
    | false => rw [st_of_not_rsvd hb]; exact ih.cons (detRsvd_eq_false.1 hb).2

theorem escFollowed_frameOf (ck : Checksum) (p : List Byte) : EscFollowed (frameOf ck p) := by
  have hlast : EscFollowed [Config.flag] := .cons flag_ne_esc fun i hi => by simp at hi
  rw [frameOf_eq]
  exact (hlast.stuff_append _).cons flag_ne_esc

/-! ## Lengths -/

/-- The wire size of a frame (R74). -/
theorem length_frameOf (ck : Checksum) (p : List Byte) : (frameOf ck p).length =
    p.length + reservedCount p + reservedCount [loByte (ck p), hiByte (ck p)] + 4 := by
  have hcount : reservedCount (carried ck p) = reservedCount p + reservedCount [loByte (ck p), hiByte (ck p)] :=
    List.countP_append
  rw [frameOf_eq, List.length_cons, List.length_append, List.length_singleton, length_stuff, hcount, length_carried]
  omega

/-- The bounds of the wire size (R74, R129). -/
theorem length_frameOf_bounds (ck : Checksum) (p : List Byte) :
    p.length + 4 ≤ (frameOf ck p).length ∧ (frameOf ck p).length ≤ 2 * p.length + 6 := by
  have hp := reservedCount_le p
  have hck : reservedCount [loByte (ck p), hiByte (ck p)] ≤ 2 := reservedCount_le _
  rw [length_frameOf]
  omega

/-- Settles O18: the FLAGs are the two around the stuffed bytes, and those un-stuff to what the frame carries. -/
theorem frameIsUnambiguous : Obligations.FrameIsUnambiguous := by
  intro ck p
  have hcount : (frameOf ck p).count Config.flag = 2 := by
    rw [frameOf_eq, List.count_cons_self, List.count_append, List.count_eq_zero.2 (flag_notMem_stuff _)]
    rfl
  have hlast : (frameOf ck p).getLast? = some Config.flag := by
    rw [frameOf_eq, ← List.cons_append, List.getLast?_concat]
  have hlen := (length_frameOf_bounds ck p).1
  exact ⟨hcount, by rw [frameOf_eq]; rfl, hlast, escFollowed_frameOf ck p, by omega,
    stuff (carried ck p), frameOf_eq ck p, unstuff_stuff _⟩

end Sys2Proof.Machine
end

section
/-! PROOF. More of `ENC_WRITE` (spec/42_encoder.md): what it leaves alone, its outward accesses, the size of its frame,
and the frame read back through the views. -/

namespace Sys2Proof.Machine

/-! ## An accepted write -/

/-- Everything an accepted `ENC_WRITE` does when it answers: the frame from cell 0 on, the accumulator and the
report (R122). -/
theorem exec_encWrite_eq_next {srcOk : Bool} {length : Nat} {pl : List Byte} {s t : State}
    (hr : writeRejected srcOk length s = false) (h : exec (.encWrite srcOk length pl) s = .next t) :
    pl.length = length ∧ Emitted (frameOf Config.ck pl) { s with enc := { s.enc with framePos := 0 } } t ∧
      t.enc.ckAcc = pl ∧ t.report = ⟨.count length, [], .ckReset :: loopAccesses Config.ck [] 0 pl⟩ :=
  encWriteWith_eq_next hr h

/-- An emission from cell 0 leaves the cursor at its length. -/
theorem Emitted.framePos_of_zero {bs : List Byte} {s t : State}
    (e : Emitted bs { s with enc := { s.enc with framePos := 0 } } t) : t.enc.framePos = bs.length :=
  e.framePos.trans (Nat.zero_add _)

theorem length_frameOf_le_ecap {s : State} {p : List Byte} (h : p.length ≤ s.params.encP) :
    (frameOf Config.ck p).length ≤ s.ecap := by
  have hb := (length_frameOf_bounds Config.ck p).2
  rw [State.ecap]
  omega

/-- Settles O6: a rejected write leaves the encoder, an accepted one is an emission of the frame from cell 0 on. -/
theorem encWriteFrame : Obligations.EncWriteFrame := by
  intro s t srcOk length pl h
  cases hr : writeRejected srcOk length s with
  | true =>
    cases (exec_encWrite_of_rejected pl hr).symm.trans h
    exact ⟨rfl, rfl, rfl, fun _ => rfl, nofun⟩
  | false =>
    obtain ⟨-, e, -, -⟩ := exec_encWrite_eq_next hr h
    exact ⟨e.dec, e.params, e.pending, nofun, fun _ a ha => e.above a ((Nat.zero_add _).trans_le ha)⟩

/-- The payload loop's accesses from offset `i` on, with `acc` folded before, byte by byte (R122). -/
theorem loopAccesses_eq (ck : Checksum) (acc : List Byte) (i : Nat) (pl : List Byte) :
    loopAccesses ck acc i pl = (List.range pl.length).flatMap fun k =>
      [.memRead (i + k) (pl.getD k 0), .ckUpdate (pl.getD k 0) (ck (acc ++ pl.take (k + 1)))] := by
  induction pl generalizing acc i with
  | nil => rfl
  | cons b bs ih =>
    rw [loopAccesses, ih, List.length_cons, List.range_succ_eq_map, List.flatMap_cons, List.flatMap_map]
    simp [Nat.add_assoc, Nat.add_comm 1]

theorem loopAccesses_zero (ck : Checksum) (pl : List Byte) :
    loopAccesses ck [] 0 pl = payloadAccesses ck pl := by simp [loopAccesses_eq, payloadAccesses]

/-- Settles O7: the accesses of the loop, after the one `ck_reset`. -/
theorem encWriteOutwardAccesses : Obligations.EncWriteOutwardAccesses := by
  intro s length pl h₀ h₁ hl
  obtain ⟨t, ht, -, -, hrep⟩ := exec_encWrite_of_accepted h₀ h₁ hl
  exact ⟨t, ht, by rw [hrep, loopAccesses_zero]⟩

/-- Settles O8: the cursor ends at the frame's length, whose size and bounds the wire format gives. -/
theorem encWriteSizeWithinBuffer : Obligations.EncWriteSizeWithinBuffer := by
  intro s length pl h₀ h₁ hl
  obtain ⟨t, ht, e, -, -⟩ := exec_encWrite_of_accepted h₀ h₁ hl
  subst hl
  have hb := length_frameOf_bounds Config.ck pl
  refine ⟨t, ht, ?_⟩
  rw [e.framePos_of_zero]
  exact ⟨length_frameOf Config.ck pl, hb.1, hb.2, length_frameOf_le_ecap h₁⟩

/-- Settles O9: size, accumulator, report and the cells below the cursor are all given by the payload. -/
theorem encWriteForgetsThePast : Obligations.EncWriteForgetsThePast := by
  intro s s' t t' length pl hp h₀ h₁ h h'
  have hr := writeRejected_eq_false.2 ⟨rfl, h₀, h₁⟩
  have hr' := writeRejected_eq_false.2 ⟨rfl, h₀, hp ▸ h₁⟩
  obtain ⟨-, e, hacc, hrep⟩ := exec_encWrite_eq_next hr h
  obtain ⟨-, e', hacc', hrep'⟩ := exec_encWrite_eq_next hr' h'
  rw [e.framePos_of_zero, e'.framePos_of_zero, hacc, hacc', hrep, hrep']
  refine ⟨rfl, rfl, rfl, fun a ha => ?_⟩
  have hcell := (e.holds a ha).trans (e'.holds a ha).symm
  simpa using hcell

/-! ## The frame read back -/

/-- Looking at any cells of the view that hold known bytes returns these bytes in order and changes nothing (R131). -/
theorem execSeq_encData {s : State} (cell : Nat → Byte) (is : List Nat)
    (h : ∀ i ∈ is, i < s.enc.framePos ∧ i < s.ecap ∧ s.enc.ebuf.read i = some (cell i)) :
    ∃ u, execSeq (is.map .encData) s = .next (u, is.map fun i => .byte (cell i)) ∧ u.enc = s.enc ∧ u.dec = s.dec := by
  induction is generalizing s with
  | nil => exact ⟨s, rfl, rfl, rfl⟩
  | cons i is ih =>
    obtain ⟨hi, his⟩ := List.forall_mem_cons.1 h
    obtain ⟨hpos, hcap, hread⟩ := hi
    obtain ⟨u, hu, henc, hdec⟩ := ih (s := s.fresh.answer (.byte (cell i))) his
    exact ⟨u, execSeq_cons_of_next (exec_encData_of_lt hpos (loadCell_eq_next.2 ⟨hcap, hread⟩)) hu, henc, hdec⟩

theorem map_getD_range (bs : List Byte) : ((List.range bs.length).map fun i => bs.getD i 0) = bs := by
  refine List.ext_getElem (by simp) fun i _ hi => ?_
  simp [List.getElem?_eq_getElem hi]

/-- `ENC_FRAME` on a view that holds `bs` presents the size and then `bs` (R88). -/
theorem execSeq_encFrame_of_holds {s : State} {bs : List Byte} (hpos : s.enc.framePos = bs.length)
    (hcap : bs.length ≤ s.ecap) (hh : s.enc.ebuf.holds 0 bs) :
    ∃ u, execSeq (encFrame bs.length) s = .next (u, .count bs.length :: bs.map .byte) ∧
      u.enc = s.enc ∧ u.dec = s.dec := by
  have hcells : ∀ i ∈ List.range bs.length,
      i < s.enc.framePos ∧ i < s.ecap ∧ s.enc.ebuf.read i = some (bs.getD i 0) := by
    intro i hi
    have hi : i < bs.length := List.mem_range.1 hi
    have hread := hh i hi
    rw [Nat.zero_add] at hread
    exact ⟨hpos ▸ hi, by omega, by simp [hread, hi]⟩
  obtain ⟨u, hu, henc, hdec⟩ := execSeq_encData (s := s.fresh.answer (.count s.enc.framePos)) _ _ hcells
  have hbytes : ((List.range bs.length).map fun i => Result.byte (bs.getD i 0)) = bs.map .byte := by
    conv => rhs; rw [← map_getD_range bs, List.map_map]
    rfl
  rw [hbytes] at hu
  have hseq := execSeq_cons_of_next (encSizeReturnsTheCursor s) hu
  rw [hpos] at hseq
  exact ⟨u, hseq, henc, hdec⟩

/-- Settles O12: after the write the view holds the frame from cell 0 on. -/
theorem encFrameReadsTheFrameOut : Obligations.EncFrameReadsTheFrameOut := by
  intro s length pl h₀ h₁ hl
  obtain ⟨t, ht, e, -, -⟩ := exec_encWrite_of_accepted h₀ h₁ hl
  have hcap : (frameOf Config.ck pl).length ≤ t.ecap := by
    rw [State.ecap_congr (s := s) e.params]
    exact length_frameOf_le_ecap (hl ▸ h₁)
  obtain ⟨u, hu, henc, hdec⟩ := execSeq_encFrame_of_holds e.framePos_of_zero hcap e.holds
  exact ⟨t, u, ht, by rw [e.framePos_of_zero]; exact hu, henc, hdec⟩

/-! ## The running checksum -/

/-- Folding a non-empty sequence leaves it behind what was folded before, and its last result is the value of
both (R112). -/
theorem execSeq_ckUpdate (s : State) (bs : List Byte) (b : Byte) :
    ∃ t rs, execSeq ((bs ++ [b]).map .ckUpdate) s = .next (t, rs) ∧
      rs.getLast? = some (.sum (Config.ck (s.enc.ckAcc ++ (bs ++ [b])))) := by
  induction bs generalizing s with
  | nil => exact ⟨_, _, execSeq_cons_of_next (ckUpdateFoldsOneByte s b) rfl, rfl⟩
  | cons c bs ih =>
    obtain ⟨t, rs, ht, hlast⟩ := ih (ckUpdateCall Config.ck c s.fresh |>.answer
      (.sum (Config.ck (s.enc.ckAcc ++ [c]))))
    refine ⟨t, _, execSeq_cons_of_next (ckUpdateFoldsOneByte s c) ht, ?_⟩
    simp only [State.answer_enc, ckUpdateCall_enc, State.fresh_enc, List.append_assoc, List.singleton_append] at hlast
    rw [List.getLast?_cons, hlast]
    rfl

/-- Settles O16: after `ck_reset` nothing was folded before, and the one-shot form is of the sequence alone. -/
theorem ckRunningFormEqualsOneShot : Obligations.CkRunningFormEqualsOneShot := by
  intro s bs b
  obtain ⟨t, rs, ht, hlast⟩ := execSeq_ckUpdate (ckResetCall s.fresh) bs b
  refine ⟨t, _, _, execSeq_cons_of_next (ckResetEmptiesTheAccumulator s) ht, ?_, ckComputeIsStateless t _, rfl⟩
  rw [List.getLast?_cons, hlast]
  rfl

end Sys2Proof.Machine
end

section
/-! PROOF. `DEC_FEED` and the invariant (spec/48_laws.md R191 to R194, R204): every row of the transition table keeps
the decoder's invariant and the ready buffer's, and in a state of the invariant every byte takes a row. -/

namespace Sys2Proof.Machine

/-! ## The decoder's invariant under each named update -/

/-- The decoder's invariant speaks of the parameters and the decoder alone. -/
theorem DecInv.congr {s t : State} (h : DecInv s) (hp : t.params = s.params) (hd : t.dec = s.dec) : DecInv t := by
  have hc := State.dcap_congr hp
  have hr := State.ready_congr hp hd
  constructor <;> rw [hd]
  case fitsA => rw [hc]; exact h.fitsA
  case fitsR => rw [hc]; exact h.fitsR
  case bound => rw [hc]; exact h.bound
  case idle => exact h.idle
  case head => exact h.head
  case taken => exact h.taken
  case avail => rw [hc]; exact h.avail
  case tail => rw [hc]; exact h.tail
  case cursor => exact h.cursor
  case undrained => rw [hr]; exact h.undrained

/-- Giving up the frame in progress (R18) keeps the invariant. -/
theorem DecInv.resetFrame {s : State} (h : DecInv s) : DecInv s.resetFrame :=
  { h with
    bound := Nat.zero_le _
    idle := fun _ => rfl
    head := fun h₀ => absurd h₀ (Nat.lt_irrefl 0)
    taken := fun _ hk => absurd hk (Nat.not_lt_zero _) }

/-- The flag may take any value while a frame is in progress, and false always (R192). -/
theorem DecInv.setEscape {s : State} (h : DecInv s) {e : Bool} (he : s.dec.framePos = 0 → e = false) :
    DecInv (s.setEscape e) := { h with idle := he }

/-- Storing a byte in range keeps the invariant, if the byte in cell 0 is a FLAG (R191). -/
theorem DecInv.stored {s : State} (h : DecInv s) {v : Byte} (hf : s.dec.framePos < s.dcap)
    (hv : s.dec.framePos = 0 → v = Config.flag) : DecInv (stored v s) :=
  { h with
    fitsA := Memory.fits_write v h.fitsA hf
    bound := hf
    idle := fun h₀ => absurd h₀ (Nat.succ_ne_zero _)
    head := fun _ => by
      rw [stored_dec, Memory.read_write]
      split
      · next h₀ => rw [hv h₀.symm]
      · next h₀ => exact h.head (Nat.pos_of_ne_zero (Ne.symm h₀))
    taken := by
      have hw := Memory.written_write_snoc v h.taken
      rwa [Nat.zero_add] at hw
    undrained := by
      have hw := h.undrained
      unfold State.ready at hw ⊢
      rw [stored_params]
      split at hw
      · rw [if_pos ‹_›]; exact Memory.written_write _ v hw
      · rw [if_neg ‹_›]; exact hw }

/-- After a success the ready buffer reads as the accumulation buffer over the whole frame (R156), whether by the copy
or because the two are one array (D6). -/
theorem read_ready_accepted {f : Nat} {m : Memory} {s : State} (hm : publishedBuffer f s = .next m) {a : Nat}
    (ha : a < f) : (accepted f m s).ready.read a = s.dec.abuf.read a := by
  obtain ⟨-, hcopied, -, -⟩ := publishedBuffer_eq_next hm
  cases hs : s.params.sharedRbuf with
  | true => simp [State.ready, hs]
  | false => simpa [State.ready, hs] using hcopied hs a ha

/-- Publishing a frame keeps the invariant: its payload lies in written cells (R194, R204). -/
theorem DecInv.accepted {s : State} (h : DecInv s) {f : Nat} {m : Memory} (h₃ : 3 ≤ f) (hd : f ≤ s.dcap)
    (hw : s.dec.abuf.written 0 f) (hm : publishedBuffer f s = .next m) : DecInv (accepted f m s) :=
  { h with
    fitsR := (publishedBuffer_eq_next hm).2.2.2 h.fitsR
    bound := Nat.zero_le _
    idle := fun _ => rfl
    head := fun h₀ => absurd h₀ (Nat.lt_irrefl 0)
    taken := fun _ hk => absurd hk (Nat.not_lt_zero _)
    avail := Nat.sub_le_sub_right hd 3
    tail := by
      change 1 + (f - 3) ≤ s.dcap - 2
      omega
    cursor := .inr Nat.one_pos
    undrained := fun k hk => by
      change k < f - 3 at hk
      change ((Machine.accepted f m s).ready.read (1 + k)).isSome = true
      rw [read_ready_accepted hm (by omega)]
      simpa using hw (1 + k) (by omega) }

/-- Every row keeps the decoder's invariant (R145, R191 to R194). -/
theorem FeedCase.decInv {ck : Checksum} {b : Byte} {s t : State} {r : Bool} (hc : FeedCase ck b s t r)
    (h : DecInv s) : DecInv t := by
  cases hc with
  | opens h₀ hb => exact h.stored (by have := s.dcap_ge; omega) fun _ => detFlag_iff.1 hb
  | ignoresNoise | ignoresFlag => exact h
  | accepts p l hi m h₃ hd _ _ _ hm =>
    exact (h.accepted h₃ hd h.taken hm).congr rfl rfl
  | rejects | tooShort | overflows => exact h.resetFrame.congr rfl rfl
  | escapes h₀ => exact h.setEscape fun hz => absurd hz h₀.ne'
  | unescapes h₀ hf => exact (h.stored hf fun hz => absurd hz h₀.ne').setEscape fun _ => rfl
  | stores h₀ hf => exact h.stored hf fun hz => absurd hz h₀.ne'

/-! ## The ready buffer's invariant -/

/-- The ready buffer's invariant speaks of the ready side alone. -/
theorem ReadyFrameInv.congr {s t : State} (h : ReadyFrameInv s) (hp : t.params = s.params)
    (hside : t.dec.rbuf = s.dec.rbuf ∧ t.dec.readPos = s.dec.readPos ∧ t.dec.availableLen = s.dec.availableLen) :
    ReadyFrameInv t := by
  obtain ⟨hbuf, hpos, hav⟩ := hside
  unfold ReadyFrameInv at h ⊢
  rw [hp, hbuf, hpos, hav]
  exact h

/-- The cells of a closing frame after a FLAG in cell 0, read in order (R155). -/
theorem Closing.holds_frame {f : Nat} {s : State} {p : List Byte} {l h : Byte} (hc : Closing f s p l h)
    (h₀ : s.dec.abuf.read 0 = some Config.flag) : s.dec.abuf.holds 0 ([Config.flag] ++ p ++ [l, h]) := by
  rw [List.append_assoc, List.singleton_append, Memory.holds_cons]
  exact ⟨h₀, hc.2⟩

/-- What a buffer holds depends on the cells read alone. -/
theorem Memory.holds_of_read_eq {m m' : Memory} {i : Nat} {bs : List Byte} (h : m.holds i bs)
    (he : ∀ k, k < bs.length → m'.read (i + k) = m.read (i + k)) : m'.holds i bs :=
  fun k hk => (he k hk).trans (h k hk)

/-- Every row keeps the ready buffer's invariant: only a match writes it, and then whole, with the checksum the
comparison has just found (R156, R194). -/
theorem FeedCase.readyFrameInv {b : Byte} {s t : State} {r : Bool} (hc : FeedCase Config.ck b s t r)
    (hd : DecInv s) (h : ReadyFrameInv s) : ReadyFrameInv t := by
  cases r with
  | false => exact h.congr hc.params_eq hc.ready_side_eq
  | true =>
    cases hc with
    | accepts p l hi m h₃ _ _ hclose hck hm =>
      intro hs
      have hlen := hclose.1
      have hheld := hclose.holds_frame (hd.head (by omega))
      obtain ⟨-, hcopied, -, -⟩ := publishedBuffer_eq_next hm
      refine .inr ⟨p, ?_, Nat.one_pos, ?_⟩
      · change 1 + (s.dec.framePos - 3) = 1 + p.length
        omega
      · rw [hck, loByte_assemble, hiByte_assemble]
        refine Memory.holds_of_read_eq hheld fun k hk => hcopied hs _ ?_
        simp at hk
        omega

/-! ## Every byte takes a row -/

/-- In a state of the invariant every byte takes a row of the table (R165). -/
theorem DecInv.feedCase {s : State} (h : DecInv s) (ck : Checksum) (b : Byte) : ∃ t r, FeedCase ck b s t r := by
  obtain ⟨t, r, ht⟩ := feed_completes (ck := ck) (b := b) h.bound h.taken
  exact ⟨t, r, feed_cases ht⟩

theorem DecInv.fresh {s : State} (h : DecInv s) : DecInv s.fresh := h.congr rfl rfl

end Sys2Proof.Machine
end

section
/-! PROOF. More of `DEC_FEED` and the wire symbols (spec/43_decoder_feed.md, spec/30_encoding.md R73): the remaining
rows as statements, the transition graph as what the rows have in common, and the symbols as the feeding of their
bytes. -/

namespace Sys2Proof.Machine

/-! ## The remaining rows -/

/-- Settles O21: row T3. -/
theorem feedIgnoresSecondFlag : Obligations.FeedIgnoresSecondFlag :=
  fun _ h₁ => exec_decFeed_of_case (.ignoresFlag h₁ rfl)

/-- Settles O23: row T6. -/
theorem feedEscapeSetsTheFlag : Obligations.FeedEscapeSetsTheFlag :=
  fun _ h₀ hin => exec_decFeed_of_case (.escapes h₀ rfl rfl hin)

/-- Settles O24: row T8, before the two storing rows and after the ESC that is not stored. -/
theorem feedOverflowDropsFrame : Obligations.FeedOverflowDropsFrame := by
  intro s b hf hb he
  have h₀ : 0 < s.dec.framePos := by have := s.dcap_ge; omega
  have hesc : (detEsc b && !s.dec.inEscape) = false := by
    rw [Bool.and_eq_false_imp, detEsc_iff, Bool.not_eq_false']
    exact he
  exact exec_decFeed_of_case (.overflows h₀ hf (detFlag_eq_false.2 hb) hesc)

/-- Settles O27: row T4 with a match; the frame's cells are written, so the copy answers. -/
theorem feedAcceptsMatchingFrame : Obligations.FeedAcceptsMatchingFrame := by
  intro s p l h hf hd h₀ hheld hck
  have hw : s.dec.abuf.written 0 s.dec.framePos := by
    intro k hk
    cases k with
    | zero => exact h₀
    | succ k =>
      have hread := Memory.written_of_holds hheld k (by simp; omega)
      rwa [show 1 + k = 0 + (k + 1) by omega] at hread
  obtain ⟨m, hm⟩ := publishedBuffer_completes (s := s.fresh) hd hw
  obtain ⟨hshared, -, habove, -⟩ := publishedBuffer_eq_next hm
  refine ⟨_, exec_decFeed_of_case (.accepts p l h m (by rw [State.fresh_dec]; omega) hd rfl ⟨hf.symm, hheld⟩ hck hm),
    rfl, rfl, rfl, ?_, rfl, fun a ha => read_ready_accepted hm (hf ▸ ha), fun a ha => habove a (hf ▸ ha), hshared,
    rfl, rfl, rfl, rfl⟩
  change s.dec.framePos - 3 = p.length
  omega

/-! ## The transition graph -/

theorem classify_of_esc {b : Byte} (h : detEsc b = true) : classify b = .esc :=
  (classify_iff b).2.1.2 (detEsc_iff.1 h)

theorem classify_of_flag {b : Byte} (h : detFlag b = true) : classify b = .flag :=
  (classify_iff b).1.2 (detFlag_iff.1 h)

theorem classify_of_data {b : Byte} (hf : detFlag b = false) (he : detEsc b = false) : classify b = .data :=
  (classify_iff b).2.2.2 ⟨detFlag_eq_false.1 hf, detEsc_eq_false.1 he⟩

/-- A byte that is no FLAG and does not set the flag moves as the graph says for any stored byte (R165). -/
theorem graphNext_of_storable {b : Byte} {cap f : Nat} {e : Bool} (hb : detFlag b = false)
    (he : (detEsc b && !e) = false) (h₀ : 0 < f) :
    graphNext cap f e (classify b) = if f < cap then (f + 1, false) else (0, false) := by
  cases hesc : detEsc b with
  | true =>
    obtain rfl : e = true := by simpa [hesc] using he
    simp [classify_of_esc hesc, graphNext, h₀.ne']
  | false => simp [classify_of_data hb hesc, graphNext, h₀.ne']

/-- Every row moves the cursor and the flag along the graph (R165). -/
theorem FeedCase.graph {ck : Checksum} {b : Byte} {s t : State} {r : Bool} (hc : FeedCase ck b s t r)
    (hidle : s.dec.framePos = 0 → s.dec.inEscape = false) :
    (t.dec.framePos, t.dec.inEscape) = graphNext s.dcap s.dec.framePos s.dec.inEscape (classify b) := by
  cases hc with
  | opens h₀ hb => simp [classify_of_flag hb, graphNext, h₀, hidle h₀]
  | ignoresNoise h₀ hb =>
    cases he : detEsc b with
    | true => simp [classify_of_esc he, graphNext, h₀, hidle h₀]
    | false => simp [classify_of_data hb he, graphNext, h₀, hidle h₀]
  | ignoresFlag h₁ hb => simp [classify_of_flag hb, graphNext, h₁]
  | accepts _ _ _ _ h₃ _ hb | rejects _ _ _ h₃ _ hb =>
    have hne₀ : s.dec.framePos ≠ 0 := by omega
    have hne₁ : s.dec.framePos ≠ 1 := by omega
    simp [classify_of_flag hb, graphNext, hne₀, hne₁]
  | tooShort h₂ hb => simp [classify_of_flag hb, graphNext, h₂]
  | escapes h₀ _ he hin => simp [classify_of_esc he, graphNext, h₀.ne', hin]
  | overflows h₀ hf hb he => simp [graphNext_of_storable hb he h₀, Nat.not_lt.2 hf]
  | unescapes h₀ hf hb hin =>
    have he : (detEsc b && !s.dec.inEscape) = false := by simp [hin]
    simp [graphNext_of_storable hb he h₀, hf]
  | stores h₀ hf hb he hin => simp [graphNext_of_storable hb (by simp [he]) h₀, hf, hin]

/-- The stored bytes split into payload and checksum in one way. -/
theorem Closing.unique {f : Nat} {s : State} {p p' : List Byte} {l l' h h' : Byte} (hc : Closing f s p l h)
    (hc' : Closing f s p' l' h') : p = p' ∧ l = l' ∧ h = h' := by
  obtain ⟨hf, hheld⟩ := hc
  obtain ⟨hf', hheld'⟩ := hc'
  have hlen : p.length = p'.length := by omega
  obtain ⟨hp, hsum⟩ := List.append_inj (Memory.holds_unique hheld hheld' (by simp [hlen])) hlen
  simp only [List.cons.injEq, and_true] at hsum
  exact ⟨hp, hsum⟩

/-- `frame_complete` is true exactly for a FLAG that finds a matching checksum (R200). -/
theorem FeedCase.complete_iff {b : Byte} {s t : State} {r : Bool} (hc : FeedCase Config.ck b s t r) :
    r = true ↔ b = Config.flag ∧ ChecksumMatches s := by
  constructor
  · rintro rfl
    cases hc with
    | accepts p l h m _ _ hb hclose hck _ => exact ⟨detFlag_iff.1 hb, p, l, h, hclose.1, hclose.2, hck⟩
  · rintro ⟨hflag, p, l, h, hf, hheld, hck⟩
    have hb : detFlag b = true := detFlag_iff.2 hflag
    cases hc with
    | accepts => rfl
    | rejects p' l' h' _ _ _ hclose hne =>
      obtain ⟨rfl, rfl, rfl⟩ := hclose.unique ⟨hf, hheld⟩
      exact absurd hck hne
    | opens h₀ | ignoresNoise h₀ | ignoresFlag h₀ | tooShort h₀ => omega
    | escapes _ hnf | overflows _ _ hnf | unescapes _ _ hnf | stores _ _ hnf => exact absurd (hb.symm.trans hnf) nofun

/-- Settles O29: the byte takes a row, and every row follows the graph and answers as R200 says. -/
theorem feedFollowsTheTransitionGraph : Obligations.FeedFollowsTheTransitionGraph := by
  intro s b hinv
  obtain ⟨t, r, hc⟩ := hinv.dec.fresh.feedCase Config.ck b
  exact ⟨_, r, exec_decFeed_of_case hc, rfl, hc.graph hinv.dec.idle, hc.complete_iff⟩

/-! ## The wire symbols -/

/-- Settles O31: a one-byte symbol is defined as the feeding of its byte, whose class is the symbol's. -/
theorem wireSymbolsFeedTheirByte : Obligations.WireSymbolsFeedTheirByte := by
  intro s d hinv hd
  have fed : ∀ b, ∃ t, exec (.decFeed b) s = .next t ∧ exec (.decFeed b) s = .next t ∧
      (t.dec.framePos, t.dec.inEscape) = graphNext s.dcap s.dec.framePos s.dec.inEscape (classify b) := by
    intro b
    obtain ⟨t, -, ht, -, hgraph, -⟩ := feedFollowsTheTransitionGraph s b hinv
    exact ⟨t, ht, ht, hgraph⟩
  have hdata : classify d = .data := (classify_iff d).2.2.2 (dataWf_eq.1 hd)
  exact ⟨fed Config.flag, fed Config.esc, hdata ▸ fed d⟩

/-- An escaped pair takes a row for each of its bytes and presents both results (R73). -/
theorem exec_escpair_eq_next {d : Byte} {s t : State} :
    exec (.escpair d) s = .next t ↔ ∃ u r₀ v r₁, FeedCase Config.ck Config.esc s.fresh u r₀ ∧
      FeedCase Config.ck d u v r₁ ∧ t = v.answer (.framesComplete r₀ r₁) := by
  rw [show exec (.escpair d) s = escpairWith Config.ck d s from rfl, escpairWith, andThen_eq_next]
  constructor
  · rintro ⟨⟨u, r₀⟩, hu, h⟩
    obtain ⟨⟨v, r₁⟩, hv, h⟩ := andThen_eq_next.1 h
    cases h
    exact ⟨u, r₀, v, r₁, feed_cases hu, feed_cases hv, rfl⟩
  · rintro ⟨u, r₀, v, r₁, hu, hv, rfl⟩
    exact ⟨(u, r₀), feed_of_case hu, by rw [feed_of_case hv, andThen_next]⟩

theorem exec_escpair_of_cases {d : Byte} {s u v : State} {r₀ r₁ : Bool}
    (hu : FeedCase Config.ck Config.esc s.fresh u r₀) (hv : FeedCase Config.ck d u v r₁) :
    exec (.escpair d) s = .next (v.answer (.framesComplete r₀ r₁)) :=
  exec_escpair_eq_next.2 ⟨u, r₀, v, r₁, hu, hv, rfl⟩

/-- Settles O32: row T6 for the ESC, then row T7 for the byte after it. -/
theorem escPairStoresXoredByte : Obligations.EscPairStoresXoredByte := by
  intro s d h₀ hf hin hd
  have hesc : FeedCase Config.ck Config.esc s.fresh (s.fresh.setEscape true) false := .escapes h₀ rfl rfl hin
  rw [exec_escpair_of_cases hesc (.unescapes h₀ hf (detFlag_eq_false.2 hd) rfl), ← hin]
  rfl

/-- Settles O33: the report between the two bytes does not matter to the decoder. -/
theorem escPairIsTwoFeeds : Obligations.EscPairIsTwoFeeds := by
  intro s d hinv
  obtain ⟨u, r₀, hu⟩ := hinv.dec.fresh.feedCase Config.ck Config.esc
  obtain ⟨v, r₁, hv⟩ := (hu.decInv hinv.dec.fresh).feedCase Config.ck d
  obtain ⟨v', hv', hdec, -⟩ := feed_congr (feed_of_case hv) (u.answer (.frameComplete r₀)).fresh rfl rfl
  exact ⟨_, _, _, r₀, r₁, exec_decFeed_of_case hu, rfl, exec_decFeed_of_case (feed_cases hv'), rfl,
    exec_escpair_of_cases hu hv, rfl, hdec.symm, hv.enc_eq.trans hu.enc_eq, hv.params_eq.trans hu.params_eq,
    hv.pending_eq.trans hu.pending_eq⟩

end Sys2Proof.Machine
end

section
/-! PROOF. What an operation can do, said once for all of them by the side it belongs to (spec/10_state.md R36), and the
laws that follow by these cases: each side leaves the other alone, the parameters are fixed, and the decoder does not
see the encoder (spec/48_laws.md R190, R205). -/

namespace Sys2Proof.Machine

/-- The encoder after an operation of ENC: the accumulator alone changes, the cursor is cleared with it, or the frame of
an acceptable payload stands from cell 0 on. -/
inductive EncCase (s : State) : Enc → Prop where
  | folded (acc : List Byte) : EncCase s { s.enc with ckAcc := acc }
  | cleared : EncCase s { s.enc with framePos := 0, ckAcc := [] }
  | wrote (pl : List Byte) (e : Enc) : 0 < pl.length → pl.length ≤ s.params.encP →
      Emitted (frameOf Config.ck pl) { s with enc := { s.enc with framePos := 0 } } { s with enc := e } →
      EncCase s e

/-- What an operation can do: the part of the state it writes, beside the report. -/
inductive ExecCase (s : State) : Instr → State → Prop where
  /-- an operation of ENC -/
  | encoder (i : Instr) (e : Enc) (r : Report) : i.isEnc = true → EncCase s e →
      ExecCase s i { s with enc := e, report := r }
  /-- the one-shot checksum -/
  | computes (bs : List Byte) (r : Report) : ExecCase s (.ckCompute bs) { s with report := r }
  /-- the reset of the decoder -/
  | resets (r : Report) : ExecCase s .decReset { s with
      dec := { s.dec with framePos := 0, inEscape := false, readPos := 0, availableLen := 0 }, report := r }
  /-- a drain or view of the payload side -/
  | drains (i : Instr) (n : Nat) (r : Report) : i.isDrain = true → n ≤ s.dec.availableLen →
      ExecCase s i { s.consume n with report := r }
  /-- one byte fed -/
  | feeds (i : Instr) (b : Byte) (t : State) (complete : Bool) (res : Result) : i.isDec = true →
      FeedCase Config.ck b s.fresh t complete → ExecCase s i (t.answer res)
  /-- two bytes fed -/
  | feedsPair (d : Byte) (t u : State) (c₀ c₁ : Bool) (res : Result) :
      FeedCase Config.ck Config.esc s.fresh t c₀ → FeedCase Config.ck d t u c₁ →
      ExecCase s (.escpair d) (u.answer res)

/-- An emission writes the encoder and the report alone. -/
theorem Emitted.eq_with_enc {bs : List Byte} {e : Enc} {s t : State} (h : Emitted bs { s with enc := e } t) :
    t = { s with enc := t.enc, report := t.report } := by
  obtain ⟨params, enc, dec, report, pending⟩ := t
  obtain rfl : params = s.params := h.params
  obtain rfl : dec = s.dec := h.dec
  obtain rfl : pending = s.pending := h.pending
  rfl

/-- `ENC_WRITE` among the cases: rejected, it leaves the encoder; accepted, the frame stands (R122, R123). -/
theorem execCase_of_encWrite {srcOk : Bool} {length : Nat} {pl : List Byte} {s t : State}
    (h : exec (.encWrite srcOk length pl) s = .next t) : ExecCase s (.encWrite srcOk length pl) t := by
  cases hr : writeRejected srcOk length s with
  | true =>
    cases (exec_encWrite_of_rejected pl hr).symm.trans h
    exact .encoder _ _ _ rfl (.folded s.enc.ckAcc)
  | false =>
    obtain ⟨hl, e, -, -⟩ := exec_encWrite_eq_next hr h
    obtain ⟨-, h₀, h₁⟩ := writeRejected_eq_false.1 hr
    rw [e.eq_with_enc]
    refine .encoder _ _ _ rfl (.wrote pl _ (by omega) (by omega) ?_)
    exact e.of_same ⟨rfl, rfl, rfl, rfl, rfl⟩ ⟨e.params.symm, e.dec.symm, e.pending.symm, rfl, rfl⟩

theorem execCase_of_feed {i : Instr} {b : Byte} {s t : State} (hi : i.isDec = true)
    (h : exec (.decFeed b) s = .next t) : ExecCase s i t := by
  obtain ⟨u, r, hc, rfl⟩ := exec_decFeed_eq_next.1 h
  exact .feeds i b u r _ hi hc

/-- Everything an operation can do when it answers. -/
theorem exec_cases {i : Instr} {s t : State} (h : exec i s = .next t) : ExecCase s i t := by
  cases i with
  | encReset => cases h; exact .encoder _ _ _ rfl .cleared
  | encWrite => exact execCase_of_encWrite h
  | encSize => cases h; exact .encoder _ _ _ rfl (.folded s.enc.ckAcc)
  | encData =>
    obtain ⟨r, rfl⟩ := exec_view_eq_next rfl h
    exact .encoder _ _ _ rfl (.folded s.enc.ckAcc)
  | decReset => cases h; exact .resets _
  | decAvail | decSize | decRead1 | decReadn | decData =>
    obtain ⟨n, r, hn, rfl⟩ := exec_drain_eq_next rfl h
    exact .drains _ n r rfl hn
  | decFeed b | data b => exact execCase_of_feed (b := b) rfl h
  | flag => exact execCase_of_feed (b := Config.flag) rfl h
  | esc => exact execCase_of_feed (b := Config.esc) rfl h
  | escpair d =>
    obtain ⟨u, r₀, v, r₁, hu, hv, rfl⟩ := exec_escpair_eq_next.1 h
    exact .feedsPair d u v r₀ r₁ _ hu hv
  | ckReset => cases h; exact .encoder _ _ _ rfl (.folded [])
  | ckUpdate b => cases h; exact .encoder _ _ _ rfl (.folded (s.enc.ckAcc ++ [b]))
  | ckCompute bs => cases h; exact .computes bs _

/-! ## What each side leaves alone -/

theorem isDec_of_isDrain {i : Instr} (h : i.isDrain = true) : i.isDec = true := by
  cases i with
  | decAvail | decSize | decRead1 | decReadn | decData => rfl
  | _ => cases h

/-- No operation is of both sides (R36). -/
theorem not_isEnc_of_isDec {i : Instr} (h : i.isDec = true) : i.isEnc ≠ true := by
  simpa [Instr.isDec] using h

theorem ExecCase.params_pending {i : Instr} {s t : State} (h : ExecCase s i t) :
    t.params = s.params ∧ t.pending = s.pending := by
  cases h with
  | encoder | computes | resets | drains => exact ⟨rfl, rfl⟩
  | feeds _ b u c res hi hc => exact ⟨hc.params_eq, hc.pending_eq⟩
  | feedsPair d u v c₀ c₁ res hu hv =>
    exact ⟨hv.params_eq.trans hu.params_eq, hv.pending_eq.trans hu.pending_eq⟩

/-- Settles O48: no case writes the parameters or the queue. -/
theorem parametersAreFixed : Obligations.ParametersAreFixed := fun _ _ _ h => (exec_cases h).params_pending

theorem exec_dcap {i : Instr} {s t : State} (h : exec i s = .next t) : t.dcap = s.dcap :=
  State.dcap_congr (parametersAreFixed i s t h).1

/-- An operation leaves the side it does not belong to (R205). -/
theorem ExecCase.other_side {i : Instr} {s t : State} (h : ExecCase s i t) :
    (i.isEnc = true → t.dec = s.dec) ∧ (i.isDec = true → t.enc = s.enc) := by
  cases h with
  | encoder _ e r hi => exact ⟨fun _ => rfl, fun hd => absurd hi (not_isEnc_of_isDec hd)⟩
  | computes => exact ⟨fun _ => rfl, fun _ => rfl⟩
  | resets => exact ⟨nofun, fun _ => rfl⟩
  | drains _ n r hi => exact ⟨fun he => absurd he (not_isEnc_of_isDec (isDec_of_isDrain hi)), fun _ => rfl⟩
  | feeds _ b u c res hi hc => exact ⟨fun he => absurd he (not_isEnc_of_isDec hi), fun _ => hc.enc_eq⟩
  | feedsPair d u v c₀ c₁ res hu hv => exact ⟨nofun, fun _ => hv.enc_eq.trans hu.enc_eq⟩

/-- Settles O47: every case writes its own side alone. -/
theorem encoderAndDecoderAreIndependent : Obligations.EncoderAndDecoderAreIndependent :=
  fun _ _ _ h => (exec_cases h).other_side

/-! ## The decoder does not see the encoder -/

section SameDecoder

variable {s s' : State} (hd : s.dec = s'.dec) (hp : s.params = s'.params)
include hd hp

/-- The reads of the ready buffer see the decoder and the parameters alone. -/
theorem readyCells_congr : readyCells s = readyCells s' ∧ readyCell s = readyCell s' := by
  obtain ⟨params, enc, dec, report, pending⟩ := s
  obtain rfl : params = s'.params := hp
  obtain rfl : dec = s'.dec := hd
  exact ⟨rfl, rfl⟩

/-- `DEC_READN` sees the decoder and the parameters alone. -/
theorem exec_decReadn_congr {ok : Bool} {n : Nat} {t : State} (h : exec (.decReadn ok n) s = .next t) :
    ∃ t', exec (.decReadn ok n) s' = .next t' ∧ t'.dec = t.dec ∧ t'.report = t.report := by
  by_cases hargs : n = 0 ∨ ok = false
  · cases (exec_decReadn_of_noarg s hargs).symm.trans h
    exact ⟨_, exec_decReadn_of_noarg s' hargs, hd.symm, rfl⟩
  · obtain ⟨hn, hok⟩ := not_or.1 hargs
    obtain rfl := Bool.eq_true_of_not_eq_false hok
    have hn := Nat.pos_of_ne_zero hn
    rw [exec_decReadn_of_arg s hn, drain, andThen_eq_next] at h
    obtain ⟨out, hout, h⟩ := h
    cases h
    have hreads := readyCells_congr (s := drainStart s) (s' := drainStart s')
      (by simp [drainStart_eq, hd]) (by simp [drainStart_eq, hp])
    rw [hreads.1, hd] at hout
    refine ⟨_, by rw [exec_decReadn_of_arg s' hn, drain, hout, andThen_next], ?_, ?_⟩ <;>
      simp [memWrites_eq, drainStart_eq, State.consume, State.answer, hd]

end SameDecoder

/-- Settles O49: operation by operation, each through what it reads: the decoder and the parameters. -/
theorem decoderCannotSeeTheEncoder : Obligations.DecoderCannotSeeTheEncoder := by
  intro i s s' t hi hd hp h
  have fed : ∀ b, exec (.decFeed b) s = .next t →
      ∃ t', exec (.decFeed b) s' = .next t' ∧ t'.dec = t.dec ∧ t'.report = t.report := by
    intro b hb
    obtain ⟨u, r, hc, rfl⟩ := exec_decFeed_eq_next.1 hb
    obtain ⟨u', hu', hdec, -, -, -, hrep⟩ := feed_congr (feed_of_case hc) s'.fresh hd.symm hp.symm
    exact ⟨_, exec_decFeed_of_case (feed_cases hu'), hdec, by simp [State.answer, hrep rfl]⟩
  cases i with
  | decReset => cases h; exact ⟨_, rfl, by rw [hd], rfl⟩
  | ckCompute => cases h; exact ⟨_, rfl, hd.symm, rfl⟩
  | decAvail | decSize => cases h; exact ⟨_, rfl, hd.symm, by rw [hd]; rfl⟩
  | decFeed b | data b => exact fed b h
  | flag => exact fed Config.flag h
  | esc => exact fed Config.esc h
  | escpair d =>
    obtain ⟨u, r₀, v, r₁, hu, hv, rfl⟩ := exec_escpair_eq_next.1 h
    obtain ⟨u', hu', hdec, -, hpar, -, hrep⟩ := feed_congr (feed_of_case hu) s'.fresh hd.symm hp.symm
    obtain ⟨v', hv', hdec', -, -, -, hrep'⟩ := feed_congr (feed_of_case hv) u' hdec hpar
    exact ⟨_, exec_escpair_of_cases (feed_cases hu') (feed_cases hv'), hdec', by
      simp [State.answer, hrep' (hrep rfl)]⟩
  | decReadn ok n => exact exec_decReadn_congr hd hp h
  | decRead1 =>
    cases hdata : s.hasData with
    | false =>
      cases (exec_decRead1_of_empty hdata).symm.trans h
      have hdata' := State.hasData_eq_false.2 (hd ▸ State.hasData_eq_false.1 hdata)
      exact ⟨_, exec_decRead1_of_empty hdata', hd.symm, rfl⟩
    | true =>
      obtain ⟨v, hv, rfl⟩ := (exec_decRead1_eq_next hdata).1 h
      have hdata' := State.hasData_eq_true.2 (hd ▸ State.hasData_eq_true.1 hdata)
      rw [(readyCells_congr hd hp).2] at hv
      exact ⟨_, exec_decRead1_of_data hdata' hv, by simp [hd], rfl⟩
  | decData k =>
    rcases Nat.lt_or_ge k s.dec.availableLen with hk | hk
    · obtain ⟨v, hv, rfl⟩ := (exec_decData_eq_next hk).1 h
      rw [(readyCells_congr hd hp).2] at hv
      exact ⟨_, exec_decData_of_lt (hd ▸ hk) hv, hd.symm, rfl⟩
    · cases (exec_decData_of_ge hk).symm.trans h
  | _ => cases hi

end Sys2Proof.Machine
end

section
/-! PROOF. The invariants (spec/48_laws.md section 1): they hold at reset, every step keeps them, and from them every
operation completes but for the refusals of D10 and D13, so that no step faults (R204). -/

namespace Sys2Proof.Machine

/-! ## Reset -/

theorem encInv_reset : EncInv State.reset where
  fits := rfl
  bound := Nat.zero_le _
  frame := .inl rfl

theorem decInv_reset : DecInv State.reset where
  fitsA := rfl
  fitsR := rfl
  bound := Nat.zero_le _
  idle := fun _ => rfl
  head := fun h₀ => absurd h₀ (Nat.lt_irrefl 0)
  taken := fun _ hk => absurd hk (Nat.not_lt_zero _)
  avail := Nat.zero_le _
  tail := Nat.zero_le _
  cursor := .inl ⟨rfl, rfl⟩
  undrained := fun _ hk => absurd hk (Nat.not_lt_zero _)

/-- Settles O50: nothing is stored, so nothing is claimed of any cell. -/
theorem invariantsHoldAtReset : Obligations.InvariantsHoldAtReset :=
  ⟨⟨encInv_reset, decInv_reset⟩, fun _ => .inl ⟨rfl, rfl⟩⟩

/-! ## The encoder's invariant -/

/-- The encoder's invariant speaks of the parameters and the encoder alone. -/
theorem EncInv.congr {s t : State} (h : EncInv s) (hp : t.params = s.params) (he : t.enc = s.enc) : EncInv t := by
  have hc := State.ecap_congr hp
  constructor <;> rw [he]
  case fits => rw [hc]; exact h.fits
  case bound => rw [hc]; exact h.bound
  case frame => rw [hp]; exact h.frame

theorem CodecInv.congr {s t : State} (h : CodecInv s) (hp : t.params = s.params) (he : t.enc = s.enc)
    (hd : t.dec = s.dec) : CodecInv t := ⟨h.enc.congr hp he, h.dec.congr hp hd⟩

/-- Every operation of ENC keeps the encoder's invariant: a frame that is written is whole (R125, R193). -/
theorem EncCase.encInv {s : State} {e : Enc} (hc : EncCase s e) (h : EncInv s) (r : Report) :
    EncInv { s with enc := e, report := r } := by
  cases hc with
  | folded acc => exact { h with }
  | cleared => exact { h with bound := Nat.zero_le _, frame := .inl rfl }
  | wrote pl e h₀ h₁ hem =>
    have hpos : e.framePos = (frameOf Config.ck pl).length := hem.framePos_of_zero
    exact {
      fits := hem.fits h.fits
      bound := hpos.trans_le (length_frameOf_le_ecap h₁)
      frame := .inr ⟨pl, h₀, h₁, hpos, hem.holds⟩ }

/-- Inside the view every cell has been written (R131, R204). -/
theorem EncInv.loadCell_view {s : State} (h : EncInv s) {i : Nat} (hi : i < s.enc.framePos) :
    ∃ v, loadCell .ebuf s.ecap s.enc.ebuf i = .next v := by
  obtain hz | ⟨p, -, -, hpos, hheld⟩ := h.frame
  · omega
  · obtain ⟨v, hv⟩ := Option.isSome_iff_exists.1 (Memory.written_of_holds hheld i (hpos ▸ hi))
    have hcap := h.bound
    exact ⟨v, loadCell_eq_next.2 ⟨by omega, by simpa using hv⟩⟩

/-! ## The decoder's invariant -/

/-- A drain takes bytes off the front of the written window (R173, R194). -/
theorem DecInv.consume {s : State} (h : DecInv s) {n : Nat} (hn : n ≤ s.dec.availableLen) : DecInv (s.consume n) :=
  { h with
    avail := (Nat.sub_le _ _).trans h.avail
    tail := by
      have htail := h.tail
      change s.dec.readPos + n + (s.dec.availableLen - n) ≤ s.dcap - 2
      omega
    cursor := by
      change (s.dec.readPos + n = 0 ∧ s.dec.availableLen - n = 0) ∨ 0 < s.dec.readPos + n
      have hcursor := h.cursor
      omega
    undrained := by
      change s.ready.written (s.dec.readPos + n) (s.dec.availableLen - n)
      exact Memory.written_sub h.undrained (Nat.le_add_right _ _) (by omega) }

/-- The reset of the decoder shows nothing to drain and no frame in progress (R140). -/
theorem DecInv.decReset {s : State} (h : DecInv s) (r : Report) : DecInv { s with
    dec := { s.dec with framePos := 0, inEscape := false, readPos := 0, availableLen := 0 }, report := r } :=
  { h.resetFrame with
    avail := Nat.zero_le _
    tail := Nat.zero_le _
    cursor := .inl ⟨rfl, rfl⟩
    undrained := fun _ hk => absurd hk (Nat.not_lt_zero _) }

/-- Inside the window every cell of the ready buffer has been written (R177, R204). -/
theorem DecInv.readyCell_window {s : State} (h : DecInv s) {k : Nat} (hk : k < s.dec.availableLen) :
    ∃ v, readyCell s k = .next v := by
  obtain ⟨v, hv⟩ := Option.isSome_iff_exists.1 (h.undrained k hk)
  have htail := h.tail
  exact ⟨v, readyCell_eq_next.2 ⟨by omega, hv⟩⟩

/-- A drain shows a shorter tail of the same payload (R178, R194). -/
theorem ReadyFrameInv.consume {s : State} (h : ReadyFrameInv s) {n : Nat} (hn : n ≤ s.dec.availableLen) :
    ReadyFrameInv (s.consume n) := by
  intro hs
  obtain ⟨hpos, hav⟩ | ⟨p, hsum, hpos, hheld⟩ := h hs
  · refine .inl ⟨?_, ?_⟩ <;> rw [State.consume_dec]
    · change s.dec.readPos + n = 0
      omega
    · change s.dec.availableLen - n = 0
      omega
  · refine .inr ⟨p, ?_, hpos.trans_le (Nat.le_add_right _ _), hheld⟩
    change s.dec.readPos + n + (s.dec.availableLen - n) = 1 + p.length
    omega

/-! ## Every operation keeps the invariants -/

/-- Every operation keeps the invariant of every reachable state. -/
theorem ExecCase.codecInv {i : Instr} {s t : State} (hc : ExecCase s i t) (h : CodecInv s) : CodecInv t := by
  cases hc with
  | encoder _ e r _ he => exact ⟨he.encInv h.enc r, h.dec.congr rfl rfl⟩
  | computes => exact h.congr rfl rfl rfl
  | resets r => exact ⟨h.enc.congr rfl rfl, h.dec.decReset r⟩
  | drains _ n r _ hn => exact ⟨h.enc.congr rfl rfl, (h.dec.consume hn).congr rfl rfl⟩
  | feeds _ b u c res _ hu =>
    exact ⟨h.enc.congr hu.params_eq hu.enc_eq, (hu.decInv h.dec.fresh).congr rfl rfl⟩
  | feedsPair d u v c₀ c₁ res hu hv =>
    exact ⟨h.enc.congr (hv.params_eq.trans hu.params_eq) (hv.enc_eq.trans hu.enc_eq),
      (hv.decInv (hu.decInv h.dec.fresh)).congr rfl rfl⟩

/-- Every operation keeps the ready buffer's invariant. -/
theorem ExecCase.readyFrameInv {i : Instr} {s t : State} (hc : ExecCase s i t) (hd : DecInv s)
    (h : ReadyFrameInv s) : ReadyFrameInv t := by
  have hfresh : ReadyFrameInv s.fresh := h.congr rfl ⟨rfl, rfl, rfl⟩
  cases hc with
  | encoder | computes => exact h.congr rfl ⟨rfl, rfl, rfl⟩
  | resets => exact fun _ => .inl ⟨rfl, rfl⟩
  | drains _ n r _ hn => exact (h.consume hn).congr rfl ⟨rfl, rfl, rfl⟩
  | feeds _ b u c res _ hu => exact (hu.readyFrameInv hd.fresh hfresh).congr rfl ⟨rfl, rfl, rfl⟩
  | feedsPair d u v c₀ c₁ res hu hv =>
    have hu' := hu.readyFrameInv hd.fresh hfresh
    exact (hv.readyFrameInv (hu.decInv hd.fresh) hu').congr rfl ⟨rfl, rfl, rfl⟩

/-- What every operation keeps and the queue does not matter to, every step keeps. -/
theorem step_keeps {P : State → Prop} (hqueue : ∀ s q, P s → P { s with pending := q })
    (hexec : ∀ i s t, P s → exec i s = .next t → P t) {s t : State} (h : P s) (hstep : step s = .next t) : P t := by
  obtain hs | ⟨i, q, hs⟩ | ⟨e, hs⟩ := step_cases s <;> rw [hs] at hstep
  · cases hstep; exact h
  · exact hexec i _ t (hqueue s q h) hstep
  · cases hstep

/-- Settles O51: the operation of the step keeps the invariant, in which the queue has no part. -/
theorem everyStepKeepsInv : Obligations.EveryStepKeepsInv := fun _ _ =>
  step_keeps (fun _ _ h => h.congr rfl rfl rfl) fun _ _ _ h he => (exec_cases he).codecInv h

/-- Settles O52: together with the invariant of the decoder, which gives a published frame its FLAG in cell 0. -/
theorem everyStepKeepsReadyFrame : Obligations.EveryStepKeepsReadyFrame := by
  intro s t hinv hready hstep
  have hboth : CodecInv t ∧ ReadyFrameInv t := by
    refine step_keeps (P := fun s => CodecInv s ∧ ReadyFrameInv s) ?_ ?_ ⟨hinv, hready⟩ hstep
    · rintro s q ⟨hc, hr⟩
      exact ⟨hc.congr rfl rfl rfl, hr.congr rfl ⟨rfl, rfl, rfl⟩⟩
    · rintro i s t ⟨hc, hr⟩ he
      exact ⟨(exec_cases he).codecInv hc, (exec_cases he).readyFrameInv hc.dec hr⟩
  exact hboth.2

/-! ## Every operation completes or is refused -/

/-- An `ENC_WRITE` that is not rejected and whose `pl` has another length is refused (R52, U5). -/
theorem exec_encWrite_of_misfit {srcOk : Bool} {length : Nat} {pl : List Byte} {s : State}
    (hr : writeRejected srcOk length s = false) (hl : pl.length ≠ length) :
    exec (.encWrite srcOk length pl) s = .refused .hostSequenceLength := by
  simp [exec_encWrite, encWriteWith, hr, hl]

theorem exec_decRead1_completes {s : State} (h : DecInv s) : ∃ t, exec .decRead1 s = .next t := by
  cases hdata : s.hasData with
  | false => exact ⟨_, exec_decRead1_of_empty hdata⟩
  | true =>
    obtain ⟨v, hv⟩ := h.readyCell_window (State.hasData_eq_true.1 hdata)
    exact ⟨_, exec_decRead1_of_data hdata hv⟩

theorem exec_decReadn_completes {s : State} (h : DecInv s) (ok : Bool) (n : Nat) :
    ∃ t, exec (.decReadn ok n) s = .next t := by
  by_cases hargs : n = 0 ∨ ok = false
  · exact ⟨_, exec_decReadn_of_noarg s hargs⟩
  · obtain ⟨hn, hok⟩ := not_or.1 hargs
    obtain rfl := Bool.eq_true_of_not_eq_false hok
    obtain ⟨out, hl, hheld, hcap⟩ := h.holds_ready (Nat.min_le_right n s.dec.availableLen)
    exact ⟨_, exec_decReadn_of_holds (Nat.pos_of_ne_zero hn) hl hheld hcap⟩

theorem exec_decFeed_completes {s : State} (h : DecInv s) (b : Byte) : ∃ t, exec (.decFeed b) s = .next t := by
  obtain ⟨u, r, hu⟩ := h.fresh.feedCase Config.ck b
  exact ⟨_, exec_decFeed_of_case hu⟩

theorem exec_escpair_completes {s : State} (h : DecInv s) (d : Byte) : ∃ t, exec (.escpair d) s = .next t := by
  obtain ⟨u, r₀, hu⟩ := h.fresh.feedCase Config.ck Config.esc
  obtain ⟨v, r₁, hv⟩ := (hu.decInv h.fresh).feedCase Config.ck d
  exact ⟨_, exec_escpair_of_cases hu hv⟩

/-- Settles O54: operation by operation; only the two views and the write have a refusing side. -/
theorem onlyOutsideViewsAndMisfitWritesStop : Obligations.OnlyOutsideViewsAndMisfitWritesStop := by
  intro i s hinv
  cases i with
  | encReset | encSize | decReset | decAvail | decSize | ckReset | ckUpdate | ckCompute => exact .inl ⟨_, rfl⟩
  | decFeed b | data b => exact .inl (exec_decFeed_completes hinv.dec b)
  | flag => exact .inl (exec_decFeed_completes hinv.dec Config.flag)
  | esc => exact .inl (exec_decFeed_completes hinv.dec Config.esc)
  | escpair d => exact .inl (exec_escpair_completes hinv.dec d)
  | decRead1 => exact .inl (exec_decRead1_completes hinv.dec)
  | decReadn ok n => exact .inl (exec_decReadn_completes hinv.dec ok n)
  | encData k =>
    rcases Nat.lt_or_ge k s.enc.framePos with hk | hk
    · obtain ⟨v, hv⟩ := hinv.enc.loadCell_view hk
      exact .inl ⟨_, exec_encData_of_lt hk hv⟩
    · exact .inr (.inl ⟨k, rfl, hk, exec_encData_of_ge hk⟩)
  | decData k =>
    rcases Nat.lt_or_ge k s.dec.availableLen with hk | hk
    · obtain ⟨v, hv⟩ := hinv.dec.readyCell_window hk
      exact .inl ⟨_, exec_decData_of_lt hk hv⟩
    · exact .inr (.inr (.inl ⟨k, rfl, hk, exec_decData_of_ge hk⟩))
  | encWrite srcOk length pl =>
    cases hr : writeRejected srcOk length s with
    | true => exact .inl ⟨_, exec_encWrite_of_rejected pl hr⟩
    | false =>
      by_cases hl : pl.length = length
      · exact .inl (encWriteWith_completes hr hl)
      · obtain ⟨rfl, h₀, h₁⟩ := writeRejected_eq_false.1 hr
        exact .inr (.inr (.inr ⟨length, pl, rfl, h₀, h₁, hl, exec_encWrite_of_misfit hr hl⟩))

/-- No operation faults in a state of the invariant: it completes or is refused. -/
theorem exec_ne_fault {s : State} (h : CodecInv s) (i : Instr) (f : Fault) : exec i s ≠ .fault f := by
  obtain ⟨t, ht⟩ | ⟨k, -, -, hk⟩ | ⟨k, -, -, hk⟩ | ⟨n, pl, -, -, -, -, hw⟩ :=
    onlyOutsideViewsAndMisfitWritesStop i s h
  · rw [ht]; nofun
  · rw [hk]; nofun
  · rw [hk]; nofun
  · rw [hw]; nofun

/-- Settles O53: a step is idle, an operation or a refusal, and no operation faults. -/
theorem noReadBeforeWrite : Obligations.NoReadBeforeWrite := by
  intro s f hinv
  obtain hs | ⟨i, q, hs⟩ | ⟨e, hs⟩ := step_cases s <;> rw [hs]
  · nofun
  · have hq : CodecInv { s with pending := q } := hinv.congr rfl rfl rfl
    exact exec_ne_fault hq i f
  · nofun

end Sys2Proof.Machine
end

section
/-! PROOF. The system laws (spec/48_laws.md section 2): noise and FLAGs that change nothing, the way back to a decoder
that waits for a frame, and the round trip of a payload. -/

namespace Sys2Proof.Machine

/-! ## Sequences -/

theorem execSeq_append_of_next {is js : List Instr} {s t u : State} {rs qs : List Result}
    (hi : execSeq is s = .next (t, rs)) (hj : execSeq js t = .next (u, qs)) :
    execSeq (is ++ js) s = .next (u, rs ++ qs) := by
  induction is generalizing s rs with
  | nil => cases hi; exact hj
  | cons i is ih =>
    obtain ⟨v, ps, hv, hps, rfl⟩ := execSeq_cons_eq_next.1 hi
    exact execSeq_cons_of_next hv (ih hps)

theorem decFeeds_append (as bs : List Byte) : decFeeds (as ++ bs) = decFeeds as ++ decFeeds bs := List.map_append

/-- What every operation keeps, every sequence of operations keeps. -/
theorem execSeq_keeps {P : State → Prop} (hexec : ∀ i s t, P s → exec i s = .next t → P t) {is : List Instr}
    {s t : State} {rs : List Result} (h : P s) (hseq : execSeq is s = .next (t, rs)) : P t := by
  induction is generalizing s rs with
  | nil => cases hseq; exact h
  | cons i is ih =>
    obtain ⟨v, qs, hv, hqs, -⟩ := execSeq_cons_eq_next.1 hseq
    exact ih (hexec i s v h hv) hqs

theorem execSeq_codecInv {is : List Instr} {s t : State} {rs : List Result} (h : CodecInv s)
    (hseq : execSeq is s = .next (t, rs)) : CodecInv t :=
  execSeq_keeps (fun _ _ _ h he => (exec_cases he).codecInv h) h hseq

theorem execSeq_dcap {is : List Instr} {s t : State} {rs : List Result} (hseq : execSeq is s = .next (t, rs)) :
    t.dcap = s.dcap :=
  execSeq_keeps (P := fun u => u.dcap = s.dcap) (fun _ _ _ h he => (exec_dcap he).trans h) rfl hseq

/-- What the last operation presented does not matter to the next one. -/
theorem exec_of_report (i : Instr) (s : State) (r : Report) : exec i { s with report := r } = exec i s := by
  cases i <;> rfl

/-! ## Bytes that change nothing -/

/-- Bytes each of which the decoder ignores, it ignores all together. -/
theorem execSeq_decFeeds_of_ignored {s : State} {bs : List Byte}
    (h : ∀ b ∈ bs, exec (.decFeed b) s = .next { s with report := ⟨.frameComplete false, [], []⟩ }) :
    ∃ r, execSeq (decFeeds bs) s =
      .next ({ s with report := r }, List.replicate bs.length (.frameComplete false)) := by
  induction bs generalizing s with
  | nil => exact ⟨s.report, rfl⟩
  | cons b bs ih =>
    obtain ⟨hb, hbs⟩ := List.forall_mem_cons.1 h
    obtain ⟨r, hr⟩ := ih (s := { s with report := ⟨.frameComplete false, [], []⟩ }) fun c hc => by
      rw [exec_of_report]; exact hbs c hc
    exact ⟨r, execSeq_cons_of_next hb hr⟩

/-- Settles O57: while Idle each byte that is no FLAG is ignored. -/
theorem noiseLeavesIdleDecoderAlone : Obligations.NoiseLeavesIdleDecoderAlone := by
  intro s g h₀ hg
  obtain ⟨r, hr⟩ := execSeq_decFeeds_of_ignored fun b hb => feedIgnoresNoiseWhileIdle s b h₀ (hg b hb)
  exact ⟨_, hr, rfl, rfl⟩

/-- Settles O60: with one FLAG taken each further FLAG is ignored, and the pending escape falls to the next byte. -/
theorem pendingEscapeSurvivesFlags : Obligations.PendingEscapeSurvivesFlags := by
  intro s n b h₁ hin hb
  obtain ⟨r, hr⟩ := execSeq_decFeeds_of_ignored (s := s) (bs := List.replicate n 0x7E) fun c hc => by
    rw [List.eq_of_mem_replicate hc]; exact feedIgnoresSecondFlag s h₁
  rw [List.length_replicate] at hr
  have hroom : s.dec.framePos < s.dcap := by have := s.dcap_ge; omega
  have hstore := feedStoresUnescapedByte s b h₁.ge hroom hb hin
  rw [← exec_of_report _ s r, h₁] at hstore
  exact ⟨_, _, hr, rfl, hstore, rfl, rfl, Memory.read_write_self _ 1 _⟩

/-! ## The way back -/

/-- One byte fed in a state of the invariant: it moves along the graph and stays in the invariant. -/
theorem exec_decFeed_graph {s : State} (h : CodecInv s) (b : Byte) :
    ∃ t, exec (.decFeed b) s = .next t ∧ CodecInv t ∧
      (t.dec.framePos, t.dec.inEscape) = graphNext s.dcap s.dec.framePos s.dec.inEscape (classify b) := by
  obtain ⟨t, r, ht, -, hgraph, -⟩ := feedFollowsTheTransitionGraph s b h
  exact ⟨t, ht, (exec_cases ht).codecInv h, hgraph⟩

/-- A FLAG leaves the decoder Idle or with one FLAG taken (R199). -/
theorem graphNext_flag_le_one (cap f : Nat) (e : Bool) : (graphNext cap f e .flag).1 ≤ 1 := by
  by_cases h₀ : f = 0
  · simp [graphNext, h₀]
  · by_cases h₁ : f = 1
    · simp [graphNext, h₁]
    · simp [graphNext, h₀, h₁]

/-- A DATA byte leaves no pending escape, and the decoder Idle or with a byte stored behind the FLAG (R165). -/
theorem graphNext_data (cap f : Nat) (e : Bool) :
    graphNext cap f e .data = (0, false) ∨ ∃ g, 2 ≤ g ∧ graphNext cap f e .data = (g, false) := by
  by_cases h₀ : f = 0
  · exact .inl (by simp [graphNext, h₀])
  · by_cases hf : f < cap
    · exact .inr ⟨f + 1, by omega, by simp [graphNext, h₀, hf]⟩
    · exact .inl (by simp [graphNext, h₀, hf])

/-- After a DATA byte, two FLAGs leave one FLAG taken and no escape pending (R198). -/
theorem graphNext_data_flag_flag (cap f : Nat) (e : Bool) {x y : Nat × Bool}
    (hx : x = graphNext cap f e .data) (hy : y = graphNext cap x.1 x.2 .flag) :
    graphNext cap y.1 y.2 .flag = (1, false) := by
  subst hy
  obtain h | ⟨g, hg, h⟩ := graphNext_data cap f e <;> rw [h] at hx <;> subst hx
  · rfl
  · have hg₀ : g ≠ 0 := by omega
    have hg₁ : g ≠ 1 := by omega
    simp [graphNext, hg₀, hg₁]

/-- Settles O58: three moves along the graph. -/
theorem synchronisingWord : Obligations.SynchronisingWord := by
  intro s x hinv hx
  obtain ⟨t₁, ht₁, hinv₁, hg₁⟩ := exec_decFeed_graph hinv x
  obtain ⟨t₂, ht₂, hinv₂, hg₂⟩ := exec_decFeed_graph hinv₁ 0x7E
  obtain ⟨t₃, ht₃, -, hg₃⟩ := exec_decFeed_graph hinv₂ 0x7E
  rw [(classify_iff x).2.2.2 (dataWf_eq.1 hx)] at hg₁
  rw [exec_dcap ht₁] at hg₂
  rw [exec_dcap ht₂, exec_dcap ht₁] at hg₃
  have hend := hg₃.trans (graphNext_data_flag_flag _ _ _ hg₁ hg₂)
  obtain ⟨hpos, hin⟩ := Prod.mk.inj hend
  exact ⟨t₃, _, execSeq_cons_of_next ht₁ (execSeq_cons_of_next ht₂ (execSeq_cons_of_next ht₃ rfl)), hpos, hin⟩

/-! ## Storing a stuffed sequence -/

/-- From `s` to `t` the decoder, not escaping at the end, has stored `bs` in `abuf` at its cursor; the cells below, the
parameters and the encoder are as before. -/
structure Collected (bs : List Byte) (s t : State) : Prop where
  enc : t.enc = s.enc
  params : t.params = s.params
  inEscape : t.dec.inEscape = false
  framePos : t.dec.framePos = s.dec.framePos + bs.length
  below : ∀ a, a < s.dec.framePos → t.dec.abuf.read a = s.dec.abuf.read a
  holds : t.dec.abuf.holds s.dec.framePos bs

theorem Collected.trans {as bs : List Byte} {s t u : State} (h₁ : Collected as s t) (h₂ : Collected bs t u) :
    Collected (as ++ bs) s u where
  enc := h₂.enc.trans h₁.enc
  params := h₂.params.trans h₁.params
  inEscape := h₂.inEscape
  framePos := by rw [h₂.framePos, h₁.framePos, List.length_append, Nat.add_assoc]
  below := fun a ha => (h₂.below a (by rw [h₁.framePos]; omega)).trans (h₁.below a ha)
  holds := Memory.holds_append.2
    ⟨Memory.holds_of_read_eq h₁.holds fun k hk => h₂.below _ (by rw [h₁.framePos]; omega), h₁.framePos ▸ h₂.holds⟩

/-- One byte stored at the cursor. -/
theorem Collected.of_write (s : State) (b : Byte) (r : Report) {e : Bool} (he : e = false) : Collected [b] s { s with
    dec := { s.dec with
      abuf := s.dec.abuf.write s.dec.framePos b, framePos := s.dec.framePos + 1, inEscape := e }
    report := r } where
  enc := rfl
  params := rfl
  inEscape := he
  framePos := rfl
  below := fun _ ha => Memory.read_write_other _ _ ha.ne
  holds := Memory.holds_cons.2 ⟨Memory.read_write_self _ _ _, Memory.holds_nil _ _⟩

/-- The wire form of a byte is stored as the byte (R71, R151, R153, R154). -/
theorem execSeq_decFeeds_st (b : Byte) {s : State} (h₀ : 0 < s.dec.framePos) (hf : s.dec.framePos < s.dcap)
    (hin : s.dec.inEscape = false) :
    ∃ t, execSeq (decFeeds (st b)) s = .next (t, List.replicate (st b).length (.frameComplete false)) ∧
      Collected [b] s t := by
  cases hb : detRsvd b with
  | true =>
    have hesc := feedEscapeSetsTheFlag s h₀ hin
    have hstore := feedStoresUnescapedByte { s with
      dec := { s.dec with inEscape := true }, report := ⟨.frameComplete false, [], []⟩ } (xform b) h₀ hf
      (xform_ne_flag hb) rfl
    have hback : xform b ^^^ 0x20 = b := xform_xform b
    rw [hback] at hstore
    rw [st_of_rsvd hb]
    exact ⟨_, execSeq_cons_of_next hesc (execSeq_cons_of_next hstore rfl), .of_write s b _ rfl⟩
  | false =>
    obtain ⟨hflag, hesc⟩ := detRsvd_eq_false.1 hb
    have hstore := feedStoresPlainByte s b h₀ hf hflag hesc hin
    rw [st_of_not_rsvd hb]
    exact ⟨_, execSeq_cons_of_next hstore rfl, .of_write s b _ hin⟩

/-- A stuffed sequence that fits is stored as the sequence, no byte of it closing the frame (R72, R196). -/
theorem execSeq_decFeeds_stuff (bs : List Byte) {s : State} (h₀ : 0 < s.dec.framePos)
    (hf : s.dec.framePos + bs.length ≤ s.dcap) (hin : s.dec.inEscape = false) :
    ∃ t, execSeq (decFeeds (stuff bs)) s = .next (t, List.replicate (stuff bs).length (.frameComplete false)) ∧
      Collected bs s t := by
  induction bs generalizing s with
  | nil => exact ⟨s, rfl, rfl, rfl, hin, rfl, fun _ _ => rfl, Memory.holds_nil _ _⟩
  | cons b bs ih =>
    rw [List.length_cons] at hf
    obtain ⟨t, ht, hcol⟩ := execSeq_decFeeds_st b h₀ (by omega) hin
    have hpos : t.dec.framePos = s.dec.framePos + 1 := hcol.framePos
    obtain ⟨u, hu, hcol'⟩ := ih (s := t) (by omega) (by rw [State.dcap_congr hcol.params]; omega) hcol.inEscape
    refine ⟨u, ?_, hcol.trans hcol'⟩
    rw [stuff, decFeeds_append, List.length_append, List.replicate_add]
    exact execSeq_append_of_next ht hu

/-! ## The round trip -/

/-- A FLAG leaves one FLAG taken and no escape pending, if the decoder was Idle or just so (R146, R148). -/
theorem exec_decFeed_flag_opens {s : State} (h : DecInv s)
    (hwait : s.dec.framePos = 0 ∨ s.dec.framePos = 1 ∧ s.dec.inEscape = false) :
    ∃ t, exec (.decFeed 0x7E) s = .next t ∧ t.report.result = .frameComplete false ∧ t.enc = s.enc ∧
      t.dec.framePos = 1 ∧ t.dec.inEscape = false := by
  obtain h₀ | ⟨h₁, hin⟩ := hwait
  · exact ⟨_, (feedFlagOpensFrame s h₀).1, rfl, rfl, rfl, h.idle h₀⟩
  · exact ⟨_, feedIgnoresSecondFlag s h₁, rfl, rfl, h₁, hin⟩

/-- A `DEC_READN` of all that is available delivers it, be it nothing (R175). -/
theorem exec_decReadn_of_window {s : State} {out : List Byte} (ha : s.dec.availableLen = out.length)
    (hh : s.ready.holds s.dec.readPos out) (hc : s.dec.readPos + out.length ≤ s.dcap) :
    ∃ t, exec (.decReadn true out.length) s = .next t ∧ t.report.result = .copied out.length out := by
  cases out with
  | nil => exact ⟨_, exec_decReadn_of_noarg s (.inl rfl), rfl⟩
  | cons v vs => exact ⟨_, exec_decReadn_of_holds (Nat.succ_pos _) (by omega) hh hc, rfl⟩

/-- A frame up to its closing FLAG (R72). -/
theorem dropLast_frameOf (ck : Checksum) (p : List Byte) :
    (frameOf ck p).dropLast = Config.flag :: stuff (carried ck p) := by
  rw [frameOf_eq, ← List.cons_append, List.dropLast_concat]

/-- Up to its closing FLAG a frame that fits is stored, payload and checksum behind the opening FLAG (R196). -/
theorem execSeq_decFeeds_dropLast {s : State} {p : List Byte} (hinv : CodecInv s)
    (hwait : s.dec.framePos = 0 ∨ s.dec.framePos = 1 ∧ s.dec.inEscape = false) (hfit : p.length + 3 ≤ s.dcap) :
    ∃ u, execSeq (decFeeds (frameOf Config.ck p).dropLast) s =
        .next (u, List.replicate ((frameOf Config.ck p).length - 1) (.frameComplete false)) ∧
      u.enc = s.enc ∧ u.dec.framePos = p.length + 3 ∧ u.dec.inEscape = false ∧
      u.dec.abuf.holds 1 (carried Config.ck p) := by
  obtain ⟨t, ht, hres, henc, hpos, hin⟩ := exec_decFeed_flag_opens hinv.dec hwait
  have hcap := exec_dcap ht
  obtain ⟨u, hu, hcol⟩ := execSeq_decFeeds_stuff (carried Config.ck p) (s := t) (by omega)
    (by rw [hpos, hcap, length_carried]; omega) hin
  have hseq := execSeq_cons_of_next ht hu
  rw [hres] at hseq
  refine ⟨u, ?_, hcol.enc.trans henc, ?_, hcol.inEscape, hpos ▸ hcol.holds⟩
  · rw [← List.length_dropLast, dropLast_frameOf]
    exact hseq
  · rw [hcol.framePos, hpos, length_carried]
    omega

/-- Settles O55: the stored bytes carry the payload and its checksum, so the closing FLAG publishes and the drain
delivers the payload. -/
theorem roundTrip : Obligations.RoundTrip := by
  intro s p hinv hwait hfit
  obtain ⟨u, hu, henc, hpos, hin, hheld⟩ := execSeq_decFeeds_dropLast hinv hwait hfit
  have hinv' := execSeq_codecInv hinv hu
  have hcap := execSeq_dcap hu
  have hhead := hinv'.dec.head (by omega)
  obtain ⟨t, ht, hpos', hin', hread, hav, -, hready, -, -, henc', hpar, -, hrep⟩ :=
    feedAcceptsMatchingFrame u p _ _ hpos (by omega) (by rw [hhead]; rfl) hheld (assemble_hiByte_loByte _).symm
  have hpay : t.ready.holds 1 p :=
    Memory.holds_of_read_eq (Memory.holds_append.1 hheld).1 fun k hk => hready _ (by omega)
  obtain ⟨v, hv, hout⟩ := exec_decReadn_of_window hav (hread ▸ hpay) (by
    rw [hread, State.dcap_congr hpar]; omega)
  exact ⟨u, t, v, hu, hpos, hin, hheld, ht, by rw [hrep], hpos', hin', hread, hav, hpay, henc'.trans henc, hv, hout⟩

/-- The whole frame fed: the last result is true, and the payload can be drained (R196). -/
theorem execSeq_decFeeds_frame {s : State} {p : List Byte} (hinv : CodecInv s)
    (hwait : s.dec.framePos = 0 ∨ s.dec.framePos = 1 ∧ s.dec.inEscape = false) (hfit : p.length + 3 ≤ s.dcap) :
    ∃ t v rs, execSeq (decFeeds (frameOf Config.ck p)) s = .next (t, rs ++ [.frameComplete true]) ∧
      t.dec.availableLen = p.length ∧
      exec (.decReadn true p.length) t = .next v ∧ v.report.result = .copied p.length p := by
  obtain ⟨u, t, v, hu, -, -, -, ht, hres, -, -, -, hav, -, -, hv, hout⟩ := roundTrip s p hinv hwait hfit
  have hsplit : frameOf Config.ck p = (frameOf Config.ck p).dropLast ++ [0x7E] := by
    rw [dropLast_frameOf, frameOf_eq]; rfl
  have hlast : execSeq (decFeeds [0x7E]) u = .next (t, [.frameComplete true]) := by
    rw [← hres]; exact execSeq_cons_of_next ht rfl
  have hseq := execSeq_append_of_next hu hlast
  rw [← decFeeds_append, ← hsplit] at hseq
  exact ⟨t, v, _, hseq, hav, hv, hout⟩

/-- Settles O59: the graph for the FLAG; for the success, the synchronising word and then the frame of the empty
payload, which fits every decoder. -/
theorem decoderAlwaysRecovers : Obligations.DecoderAlwaysRecovers := by
  intro s hinv
  constructor
  · obtain ⟨t, ht, -, hgraph⟩ := exec_decFeed_graph hinv 0x7E
    have hle : t.dec.framePos ≤ 1 := (congrArg Prod.fst hgraph).trans_le (graphNext_flag_le_one _ _ _)
    exact ⟨t, ht, Nat.le_one_iff_eq_zero_or_eq_one.1 hle⟩
  · obtain ⟨t, rs, ht, hpos, hin⟩ := synchronisingWord s 0x00 hinv (by decide)
    obtain ⟨u, -, qs, hu, -⟩ := execSeq_decFeeds_frame (p := []) (execSeq_codecInv hinv ht) (.inr ⟨hpos, hin⟩)
      (by have := t.dcap_ge; rw [List.length_nil]; omega)
    refine ⟨[0x00, 0x7E, 0x7E] ++ frameOf Config.ck [], u, rs ++ qs, ?_⟩
    rw [decFeeds_append, List.append_assoc]
    exact execSeq_append_of_next ht hu

/-- Settles O56: the write and the read-out leave the decoder as it was, so the round trip starts from it. -/
theorem loopbackDeliversThePayload : Obligations.LoopbackDeliversThePayload := by
  intro s p hinv hwait h₀ h₁ hfit
  obtain ⟨t, u, ht, hu, -, hdec⟩ := encFrameReadsTheFrameOut s p.length p h₀ h₁ rfl
  have hinv' := execSeq_codecInv ((exec_cases ht).codecInv hinv) hu
  have hdec' : u.dec = s.dec := hdec.trans ((encoderAndDecoderAreIndependent _ _ _ ht).1 rfl)
  have hcap : u.dcap = s.dcap := (execSeq_dcap hu).trans (exec_dcap ht)
  rw [← hdec'] at hwait
  rw [← hcap] at hfit
  obtain ⟨v, w, rs, hv, hav, hw, hout⟩ := execSeq_decFeeds_frame hinv' hwait hfit
  rw [← exec_of_report _ v ⟨.count v.dec.availableLen, [], []⟩] at hw
  have hdrain := execSeq_cons_of_next (availAndSizeReturnTheCount v).1
    (execSeq_cons_of_next hw (rfl : execSeq [] w = .next (w, [])))
  rw [hout] at hdrain
  refine ⟨t, u, v, w, frameOf Config.ck p, rs, ht, hu, hv, ?_⟩
  rw [hav] at hdrain ⊢
  exact hdrain

end Sys2Proof.Machine
end
